-- ==== Sys2Proof/Word.lean ====
section
/-!
DEFINITION. The word types of the core: what the spec treats as bits (00_scope.md R8, R9; 30_encoding.md R71).
-/

namespace Sys2Proof

/-- A memory cell, a general register, a timer, an immediate `kk` (8 bits, R21, R28, R50, R71). -/
abbrev Byte := BitVec 8

/-- An opcode, `pc`, `I`, a stack cell (16 bits, R23, R24, R25, R70). -/
abbrev Word := BitVec 16

/-- An opcode field of 4 bits: a register number `x` or `y`, the count `n`, the family; also a key number
(R71, R203). -/
abbrev Nibble := BitVec 4

/-- The 12-bit address field `nnn` (R71). -/
abbrev Addr12 := BitVec 12

end Sys2Proof
end

