-- ==== Sys2Proof/Syntax.lean ====
section
/-!
DEFINITION. The instructions: one constructor per row of spec/opcode_table.json (30_encoding.md R84), each carrying the
fields its format uses and nothing else (R72, R74), and what the decoder answers for an opcode.
-/

namespace Sys2Proof

/-- The 34 defined instructions, in the order of R84. Registers are named by their 4-bit field, so a register access is
never out of range (R21). -/
inductive Instr where
  /-- `0?E0` -/
  | clearScreen
  /-- `0?EE`, Return -/
  | ret
  /-- `1nnn` -/
  | jump (nnn : Addr12)
  /-- `2nnn` -/
  | call (nnn : Addr12)
  /-- `3xkk` -/
  | skipEqImm (x : Nibble) (kk : Byte)
  /-- `4xkk` -/
  | skipNeImm (x : Nibble) (kk : Byte)
  /-- `5xy0` -/
  | skipEqReg (x y : Nibble)
  /-- `6xkk` -/
  | loadImm (x : Nibble) (kk : Byte)
  /-- `7xkk` -/
  | addImm (x : Nibble) (kk : Byte)
  /-- `8xy0` -/
  | loadReg (x y : Nibble)
  /-- `8xy1`, Or -/
  | orReg (x y : Nibble)
  /-- `8xy2`, And -/
  | andReg (x y : Nibble)
  /-- `8xy3`, Xor -/
  | xorReg (x y : Nibble)
  /-- `8xy4` -/
  | addReg (x y : Nibble)
  /-- `8xy5` -/
  | sub (x y : Nibble)
  /-- `8xy6`; `y` is encoded and ignored by the meaning (R148) -/
  | shr (x y : Nibble)
  /-- `8xy7` -/
  | subN (x y : Nibble)
  /-- `8xyE`; `y` is encoded and ignored by the meaning (R150) -/
  | shl (x y : Nibble)
  /-- `9xy0` -/
  | skipNeReg (x y : Nibble)
  /-- `Annn` -/
  | loadIndex (nnn : Addr12)
  /-- `Bnnn` -/
  | jumpOffset (nnn : Addr12)
  /-- `Cxkk` -/
  | random (x : Nibble) (kk : Byte)
  /-- `Dxyn` -/
  | draw (x y n : Nibble)
  /-- `Ex9E` -/
  | skipKeyPressed (x : Nibble)
  /-- `ExA1` -/
  | skipKeyNotPressed (x : Nibble)
  /-- `Fx07` -/
  | loadDelay (x : Nibble)
  /-- `Fx0A` -/
  | waitKey (x : Nibble)
  /-- `Fx15` -/
  | fSetDelay (x : Nibble)
  /-- `Fx18` -/
  | fSetSound (x : Nibble)
  /-- `Fx1E` -/
  | addIndex (x : Nibble)
  /-- `Fx29` -/
  | loadFont (x : Nibble)
  /-- `Fx33` -/
  | storeBCD (x : Nibble)
  /-- `Fx55` -/
  | storeRegs (x : Nibble)
  /-- `Fx65` -/
  | loadRegs (x : Nibble)
deriving DecidableEq, Repr

/-- What `decode` answers (R74): a defined instruction, or the catch-all Unknown "carrying the original value for
diagnostics", which has no row in the opcode table (R80; log 7). -/
inductive Decoded where
  | defined (i : Instr)
  | unknown (opcode : Word)
deriving DecidableEq, Repr

end Sys2Proof
end

