-- ==== Sys2Proof/Decode.lean ====
section
/-!
DEFINITION. The decoder (30_encoding.md R70 to R85), pure and total on every pair of bytes, and after it the encoder and
the opcode map of R84 as a table.
-/

namespace Sys2Proof

/-! ### Fields (R71) -/

/-- `family = opcode[15:12]` -/
def fieldFamily (w : Word) : Nibble := w.extractLsb' 12 4

/-- `x = opcode[11:8]` -/
def fieldX (w : Word) : Nibble := w.extractLsb' 8 4

/-- `y = opcode[7:4]` -/
def fieldY (w : Word) : Nibble := w.extractLsb' 4 4

/-- `n = opcode[3:0]` -/
def fieldN (w : Word) : Nibble := w.extractLsb' 0 4

/-- `nnn = opcode[11:0]` -/
def fieldNNN (w : Word) : Addr12 := w.extractLsb' 0 12

/-- `kk = opcode[7:0]` -/
def fieldKK (w : Word) : Byte := w.extractLsb' 0 8

/-! ### The decoder (R74) -/

/-- Family 0x0: the selector is the exact low byte; bits 11:8 are not examined (R75, D17; log 15). -/
def decodeFamily0 (w : Word) : Decoded :=
  match (fieldKK w).toNat with
  | 0xE0 => .defined .clearScreen
  | 0xEE => .defined .ret
  | _ => .unknown w

/-- Families 0x5 and 0x9 require `n = 0` (R76). -/
def decodeNZero (w : Word) (i : Instr) : Decoded :=
  match (fieldN w).toNat with
  | 0 => .defined i
  | _ => .unknown w

/-- Family 0x8: the selector is the low nibble (R77, D3; log 16). -/
def decodeFamily8 (w : Word) : Decoded :=
  match (fieldN w).toNat with
  | 0x0 => .defined (.loadReg (fieldX w) (fieldY w))
  | 0x1 => .defined (.orReg (fieldX w) (fieldY w))
  | 0x2 => .defined (.andReg (fieldX w) (fieldY w))
  | 0x3 => .defined (.xorReg (fieldX w) (fieldY w))
  | 0x4 => .defined (.addReg (fieldX w) (fieldY w))
  | 0x5 => .defined (.sub (fieldX w) (fieldY w))
  | 0x6 => .defined (.shr (fieldX w) (fieldY w))
  | 0x7 => .defined (.subN (fieldX w) (fieldY w))
  | 0xE => .defined (.shl (fieldX w) (fieldY w))
  | _ => .unknown w

/-- Family 0xE: the selector is the low byte (R78). -/
def decodeFamilyE (w : Word) : Decoded :=
  match (fieldKK w).toNat with
  | 0x9E => .defined (.skipKeyPressed (fieldX w))
  | 0xA1 => .defined (.skipKeyNotPressed (fieldX w))
  | _ => .unknown w

/-- Family 0xF: the selector is the low byte (R79, D4; log 16). -/
def decodeFamilyF (w : Word) : Decoded :=
  match (fieldKK w).toNat with
  | 0x07 => .defined (.loadDelay (fieldX w))
  | 0x0A => .defined (.waitKey (fieldX w))
  | 0x15 => .defined (.fSetDelay (fieldX w))
  | 0x18 => .defined (.fSetSound (fieldX w))
  | 0x1E => .defined (.addIndex (fieldX w))
  | 0x29 => .defined (.loadFont (fieldX w))
  | 0x33 => .defined (.storeBCD (fieldX w))
  | 0x55 => .defined (.storeRegs (fieldX w))
  | 0x65 => .defined (.loadRegs (fieldX w))
  | _ => .unknown w

/-- `decode(opcode)` (R74): total; dispatch on the family, then on the secondary selector. -/
def decode (w : Word) : Decoded :=
  match (fieldFamily w).toNat with
  | 0x0 => decodeFamily0 w
  | 0x1 => .defined (.jump (fieldNNN w))
  | 0x2 => .defined (.call (fieldNNN w))
  | 0x3 => .defined (.skipEqImm (fieldX w) (fieldKK w))
  | 0x4 => .defined (.skipNeImm (fieldX w) (fieldKK w))
  | 0x5 => decodeNZero w (.skipEqReg (fieldX w) (fieldY w))
  | 0x6 => .defined (.loadImm (fieldX w) (fieldKK w))
  | 0x7 => .defined (.addImm (fieldX w) (fieldKK w))
  | 0x8 => decodeFamily8 w
  | 0x9 => decodeNZero w (.skipNeReg (fieldX w) (fieldY w))
  | 0xA => .defined (.loadIndex (fieldNNN w))
  | 0xB => .defined (.jumpOffset (fieldNNN w))
  | 0xC => .defined (.random (fieldX w) (fieldKK w))
  | 0xD => .defined (.draw (fieldX w) (fieldY w) (fieldN w))
  | 0xE => decodeFamilyE w
  | _ => decodeFamilyF w

/-- The opcode two bytes stand for: big-endian, `hi` being the byte at the lower address (R52, R53, R70). -/
def opcodeOfBytes (hi lo : Byte) : Word := hi ++ lo

/-- The high byte of an opcode, stored at the lower address (R53). -/
def opcodeHigh (w : Word) : Byte := w.extractLsb' 8 8

/-- The low byte of an opcode, stored at the higher address (R53). -/
def opcodeLow (w : Word) : Byte := w.extractLsb' 0 8

/-- The decoder on the two bytes of an instruction. -/
def decodeBytes (hi lo : Byte) : Decoded := decode (opcodeOfBytes hi lo)

/-- The instruction of a decoder's answer, none for Unknown. -/
def Decoded.instr? : Decoded → Option Instr
  | .defined i => some i
  | .unknown _ => none

/-- The host's view of the decoder: the instruction read from bits `w`, numbered as spec/opcode_table.json numbers them.
An instruction is one 16-bit word (R70), laid out high byte first; bits above `nbits` are 0. -/
def decodeTableWord (nbits w : Nat) : Option Instr :=
  let opcode := BitVec.ofNat 16 (w % 2 ^ nbits)
  (decodeBytes (opcodeHigh opcode) (opcodeLow opcode)).instr?

/-! ### The encoder (R72, R84) -/

/-- Format NNN. -/
def encodeNNN (family : Nibble) (nnn : Addr12) : Word := family ++ nnn

/-- Format XKK; formats X and OP with their fixed low byte are the same layout. -/
def encodeXKK (family x : Nibble) (kk : Byte) : Word := family ++ (x ++ kk : Addr12)

/-- Format XYN; format XY with its fixed low nibble is the same layout. -/
def encodeXYN (family x y n : Nibble) : Word := family ++ (x ++ (y ++ n : Byte) : Addr12)

/-- The opcode of an instruction (R84). The nibble that format OP ignores is 0, as in the source's patterns `00E0` and
`00EE`. -/
def encode : Instr → Word
  | .clearScreen => encodeXKK 0x0 0x0 0xE0
  | .ret => encodeXKK 0x0 0x0 0xEE
  | .jump nnn => encodeNNN 0x1 nnn
  | .call nnn => encodeNNN 0x2 nnn
  | .skipEqImm x kk => encodeXKK 0x3 x kk
  | .skipNeImm x kk => encodeXKK 0x4 x kk
  | .skipEqReg x y => encodeXYN 0x5 x y 0x0
  | .loadImm x kk => encodeXKK 0x6 x kk
  | .addImm x kk => encodeXKK 0x7 x kk
  | .loadReg x y => encodeXYN 0x8 x y 0x0
  | .orReg x y => encodeXYN 0x8 x y 0x1
  | .andReg x y => encodeXYN 0x8 x y 0x2
  | .xorReg x y => encodeXYN 0x8 x y 0x3
  | .addReg x y => encodeXYN 0x8 x y 0x4
  | .sub x y => encodeXYN 0x8 x y 0x5
  | .shr x y => encodeXYN 0x8 x y 0x6
  | .subN x y => encodeXYN 0x8 x y 0x7
  | .shl x y => encodeXYN 0x8 x y 0xE
  | .skipNeReg x y => encodeXYN 0x9 x y 0x0
  | .loadIndex nnn => encodeNNN 0xA nnn
  | .jumpOffset nnn => encodeNNN 0xB nnn
  | .random x kk => encodeXKK 0xC x kk
  | .draw x y n => encodeXYN 0xD x y n
  | .skipKeyPressed x => encodeXKK 0xE x 0x9E
  | .skipKeyNotPressed x => encodeXKK 0xE x 0xA1
  | .loadDelay x => encodeXKK 0xF x 0x07
  | .waitKey x => encodeXKK 0xF x 0x0A
  | .fSetDelay x => encodeXKK 0xF x 0x15
  | .fSetSound x => encodeXKK 0xF x 0x18
  | .addIndex x => encodeXKK 0xF x 0x1E
  | .loadFont x => encodeXKK 0xF x 0x29
  | .storeBCD x => encodeXKK 0xF x 0x33
  | .storeRegs x => encodeXKK 0xF x 0x55
  | .loadRegs x => encodeXKK 0xF x 0x65

/-- The opcode a decoder's answer stands for: an Unknown carries its own. -/
def encodeDecoded : Decoded → Word
  | .defined i => encode i
  | .unknown w => w

/-! ### The opcode map as a table (R83, R84) -/

/-- The row of R84 an instruction belongs to, counted from 1 as there. -/
def rowNumber : Instr → Nat
  | .clearScreen => 1
  | .ret => 2
  | .jump _ => 3
  | .call _ => 4
  | .skipEqImm _ _ => 5
  | .skipNeImm _ _ => 6
  | .skipEqReg _ _ => 7
  | .loadImm _ _ => 8
  | .addImm _ _ => 9
  | .loadReg _ _ => 10
  | .orReg _ _ => 11
  | .andReg _ _ => 12
  | .xorReg _ _ => 13
  | .addReg _ _ => 14
  | .sub _ _ => 15
  | .shr _ _ => 16
  | .subN _ _ => 17
  | .shl _ _ => 18
  | .skipNeReg _ _ => 19
  | .loadIndex _ => 20
  | .jumpOffset _ => 21
  | .random _ _ => 22
  | .draw _ _ _ => 23
  | .skipKeyPressed _ => 24
  | .skipKeyNotPressed _ => 25
  | .loadDelay _ => 26
  | .waitKey _ => 27
  | .fSetDelay _ => 28
  | .fSetSound _ => 29
  | .addIndex _ => 30
  | .loadFont _ => 31
  | .storeBCD _ => 32
  | .storeRegs _ => 33
  | .loadRegs _ => 34

/-- One row of R84: its number, the bits it tests (mask) and the values they must have (match). -/
structure OpcodeRow where
  number : Nat
  matchBits : Word
  mask : Word
deriving DecidableEq, Repr

/-- Does an opcode match a row: `(opcode & mask) = match` (R83). -/
def OpcodeRow.matchesWord (r : OpcodeRow) (w : Word) : Bool := w &&& r.mask == r.matchBits

/-- Rows 1 to 34 of R84. -/
def opcodeRows : List OpcodeRow :=
  [⟨1, 0x00E0, 0xF0FF⟩, ⟨2, 0x00EE, 0xF0FF⟩, ⟨3, 0x1000, 0xF000⟩, ⟨4, 0x2000, 0xF000⟩, ⟨5, 0x3000, 0xF000⟩,
   ⟨6, 0x4000, 0xF000⟩, ⟨7, 0x5000, 0xF00F⟩, ⟨8, 0x6000, 0xF000⟩, ⟨9, 0x7000, 0xF000⟩, ⟨10, 0x8000, 0xF00F⟩,
   ⟨11, 0x8001, 0xF00F⟩, ⟨12, 0x8002, 0xF00F⟩, ⟨13, 0x8003, 0xF00F⟩, ⟨14, 0x8004, 0xF00F⟩, ⟨15, 0x8005, 0xF00F⟩,
   ⟨16, 0x8006, 0xF00F⟩, ⟨17, 0x8007, 0xF00F⟩, ⟨18, 0x800E, 0xF00F⟩, ⟨19, 0x9000, 0xF00F⟩, ⟨20, 0xA000, 0xF000⟩,
   ⟨21, 0xB000, 0xF000⟩, ⟨22, 0xC000, 0xF000⟩, ⟨23, 0xD000, 0xF000⟩, ⟨24, 0xE09E, 0xF0FF⟩, ⟨25, 0xE0A1, 0xF0FF⟩,
   ⟨26, 0xF007, 0xF0FF⟩, ⟨27, 0xF00A, 0xF0FF⟩, ⟨28, 0xF015, 0xF0FF⟩, ⟨29, 0xF018, 0xF0FF⟩, ⟨30, 0xF01E, 0xF0FF⟩,
   ⟨31, 0xF029, 0xF0FF⟩, ⟨32, 0xF033, 0xF0FF⟩, ⟨33, 0xF055, 0xF0FF⟩, ⟨34, 0xF065, 0xF0FF⟩]

end Sys2Proof
end

