-- ==== Sys2Proof/Config.lean ====
section
/-!
DEFINITION. The fixed parameters of the core (00_scope.md R4) and its one free value. The font base and the font bytes,
which a test could show wrong, stand in Machine/Font.lean.
-/

namespace Sys2Proof

/-- `MEM_SIZE` (R4): addresses 0x000 to 0xFFF. -/
def Config.memSize : Nat := 4096

/-- `PROG_BASE` (R4): where the program image is placed and where `pc` starts. -/
def Config.progBase : Nat := 0x200

/-- `PROG_MAX` (R4): `MEM_SIZE - PROG_BASE`, the longest image `load_program` accepts. -/
def Config.progMax : Nat := Config.memSize - Config.progBase

/-- `FB_W` and `FB_H` (R4). -/
def Config.fbWidth : Nat := 64

/-- The height of the framebuffer (R4). -/
def Config.fbHeight : Nat := 32

/-- FREE VALUE (log 5, DESIGN CHOICE, safe): the byte the randomness collaborator supplies to the `k`-th Random that
runs with no byte driven by the host. It has no body, so nothing can be proved about which byte it is: "any of the 256
values may occur at each execution, independently of every other" (42_alu.md R151). -/
opaque Config.rnd : Nat → Byte

end Sys2Proof
end

