-- ==== Sys2Proof/Machine/Font.lean ====
section
/-!
DEFINITION. The font in memory (20_memory.md R56) and with it the reset contents of every memory cell (10_state.md R33).
-/

namespace Sys2Proof.Machine

/-- `FONT_BASE` (R4, R56; decision D1, conflict C3; log 2). -/
def fontBase : Nat := 0x050

/-- The 80 font bytes of R56, digit 0 to digit F, 5 bytes each, the top row first (decision D2; log 1). -/
def fontBytes : List Byte :=
  [0xF0, 0x90, 0x90, 0x90, 0xF0,  0x20, 0x60, 0x20, 0x20, 0x70,  0xF0, 0x10, 0xF0, 0x80, 0xF0,  0xF0, 0x10, 0xF0, 0x10, 0xF0] ++
  [0x90, 0x90, 0xF0, 0x10, 0x10,  0xF0, 0x80, 0xF0, 0x10, 0xF0,  0xF0, 0x80, 0xF0, 0x90, 0xF0,  0xF0, 0x10, 0x20, 0x40, 0x40] ++
  [0xF0, 0x90, 0xF0, 0x90, 0xF0,  0xF0, 0x90, 0xF0, 0x10, 0xF0,  0xF0, 0x90, 0xF0, 0x90, 0x90,  0xE0, 0x90, 0xE0, 0x90, 0xE0] ++
  [0xF0, 0x80, 0x80, 0x80, 0xF0,  0xE0, 0x90, 0x90, 0x90, 0xE0,  0xF0, 0x80, 0xF0, 0x80, 0xF0,  0xF0, 0x80, 0xF0, 0x80, 0x80]

/-- What a memory cell holds after reset, and so what an address that memory does not list reads as: the font bytes at
`FONT_BASE`, zero elsewhere (R33, R56). -/
def resetByte (a : Nat) : Byte :=
  if a < fontBase then 0 else fontBytes.getD (a - fontBase) 0

end Sys2Proof.Machine
end

