-- ==== Sys2Proof/Machine/State.lean ====
section
/-!
DEFINITION. The Machine State (10_state.md R20), what the host can be answered, and why a step can stop. The types only:
what reads and writes them stands in Machine/Ops.lean and the files after it.
-/

namespace Sys2Proof.Machine

/-- The host commands (00_scope.md R5, 47_host_operations.md R202: "There is no other command"). -/
inductive Command where
  /-- R200, R250 -/
  | reset
  /-- R201 -/
  | loadProgram (bytes : List Byte)
  /-- R100: one fetch-decode-apply with the `rnd` input the host drives -/
  | cycle (rnd : Byte)
  /-- R233 -/
  | stepTimers
  /-- R203; the index is 4 bits wide, so it cannot be out of range -/
  | setKey (index : Nibble) (pressed : Bool)
  /-- R206 -/
  | setDelayTimer (value : Byte)
  /-- R206 -/
  | setSoundTimer (value : Byte)
  /-- R204 -/
  | framebuffer
  /-- R205 -/
  | delayTimer
  /-- R205 -/
  | soundTimer
  /-- R205 -/
  | audioActive
deriving DecidableEq, Repr

/-- The Machine State of R20, and after it three fields that are the MODEL's own (log 4): inputs, which R32 keeps out of
the Machine State. -/
structure State where
  /-- `V[0]` to `V[15]` (R21); `V[15]` is the flag register (R22). -/
  v : Vector Byte 16
  /-- `I` (R23). -/
  index : Word
  /-- `pc` (R24): between commands, the address of the next instruction to fetch. -/
  pc : Word
  /-- `stack[0]` to `stack[15]` (R25). -/
  stack : Vector Word 16
  /-- `sp` (R25): how many stack cells are valid, 0 to 16. -/
  sp : Fin 17
  /-- `memory` (R26, R50): the cells that differ from their reset contents, addresses rising (log 1). -/
  mem : List Host.Cell
  /-- `fb[0]` to `fb[2047]` (R27): 32 rows of 64 one-bit cells; cell `cy * 64 + cx` is bit `cx` of row `cy` (log 30). -/
  fb : Vector (BitVec 64) 32
  /-- `DT` (R28). -/
  dt : Byte
  /-- `ST` (R28). -/
  st : Byte
  /-- `keypad[0]` to `keypad[15]` (R29): true while the key is held down. -/
  keypad : Vector Bool 16
  /-- `pending_key` (R30). -/
  pendingKey : Option Nibble
  /-- `audio_active` (R31). -/
  audioActive : Bool
  /-- MODEL'S OWN: the host commands issued and not yet applied, oldest first; with none, the host issues `cycle` (log 6). -/
  commands : List Command
  /-- MODEL'S OWN: the `rnd` input (R209): the byte the host drives, or none where it is left free (log 5). -/
  rndIn : Option Byte
  /-- MODEL'S OWN: how many times Random has run; the argument of the free value `Config.rnd` (log 5). -/
  draws : Nat
deriving DecidableEq, Repr

/-- Why a cycle stops: the five causes of 60_exceptions.md R220, each with its info value. All are SAFE: the machine
commits nothing (R104), and the model ends the run where the host could go on (log 9). -/
inductive Fault where
  /-- Raised by Call with a full stack; info is the address of the Call (R221). Safe. -/
  | stackOverflow (address : Word)
  /-- Raised by Return with an empty stack; info is the address of the Return (R222). Safe. -/
  | stackUnderflow (address : Word)
  /-- Raised by Draw, StoreBCD, StoreRegs and LoadRegs when an address exceeds 0xFFF; info is the lowest such address,
  `max(I, 0x1000)` (R223). Safe. -/
  | memoryBounds (address : Word)
  /-- Raised by the fetch of any cycle with `pc > 0xFFE`; info is `pc` (R224). Safe. -/
  | fetchBounds (pc : Word)
  /-- Raised by SkipKeyPressed and SkipKeyNotPressed when `V[x] > 15`; info is `V[x]` (R225). Safe. -/
  | keyIndex (value : Byte)
deriving DecidableEq, Repr

/-- Why the model gives an instruction no meaning. -/
inductive Refusal where
  /-- Raised by an arm of `exec` whose instruction has no meaning yet; none is left. Safe. -/
  | notModelled (mnemonic : String)
deriving DecidableEq, Repr

/-- The outcome of a `cycle` (40_engine_cycle.md R106): an output, not state (R32). -/
inductive CycleOutcome where
  /-- One instruction was applied in full, Unknown included. -/
  | normal
  /-- A WaitKey found no latched key; the state is unchanged. -/
  | waitingForKey
  /-- The cycle raised a fault and committed nothing. -/
  | fault (cause : Fault)
  /-- Not the spec's: an instruction the model refuses. No instruction is refused, so it never occurs. -/
  | refused (reason : Refusal)
deriving DecidableEq, Repr

/-- What a host command answers: an output, not state (R32). -/
inductive Response where
  /-- The command has no result. -/
  | done
  /-- `load_program` answered `Ok` (R201). -/
  | ok
  /-- `load_program` answered `LoadError`: the image is longer than 3584 bytes (R201, R227). -/
  | loadError
  /-- `cycle`: its outcome, and `diag_unknown` (R100, R226). -/
  | cycled (outcome : CycleOutcome) (diagUnknown : Option Word)
  /-- `framebuffer()`: the 2048 cells, row-major, cell 0 first (R204). -/
  | grid (cells : List Bool)
  /-- `delay_timer()` or `sound_timer()` (R205). -/
  | byte (value : Byte)
  /-- `audio_active()` (R205). -/
  | bit (value : Bool)
deriving DecidableEq, Repr

/-- The state after the `reset` command (R33, R250). Memory lists nothing: unlisted cells read as their reset contents.
The values of `v`, `index`, `stack`, `fb`, `keypad`, `pendingKey` and `audioActive` are the spec's decisions D16 and D28
(log 3); the last three fields are the model's own (log 4, DESIGN CHOICE). -/
def State.reset : State where
  v := Vector.replicate 16 0
  index := 0
  pc := 0x200
  stack := Vector.replicate 16 0
  sp := 0
  mem := []
  fb := Vector.replicate 32 0
  dt := 0
  st := 0
  keypad := Vector.replicate 16 false
  pendingKey := none
  audioActive := false
  commands := []
  rndIn := none
  draws := 0

end Sys2Proof.Machine
end

