-- ==== Sys2Proof/Machine/Ops.lean ====
section
/-!
DEFINITION. The named operations over memory, registers, `pc`, the stack and the framebuffer, the fetch, and taking a
fault. Everything an instruction does to the state goes through these.
-/

namespace Sys2Proof.Machine

/-- What a step answers. -/
abbrev Result := Host.Outcome State Fault Refusal

/-! ### Memory (20_memory.md R50, R51) -/

/-- Memory as data: the cells that differ from their reset contents. -/
abbrev Memory := List Host.Cell

/-- The canonical form: addresses strictly rising and inside 0x000 to 0xFFF, and no cell equal to what an unlisted address
reads as. Equal memories are then equal lists. -/
abbrev Memory.wf (m : Memory) : Prop :=
  m.Pairwise (fun c d => c.1 < d.1) ∧ ∀ c ∈ m, c.1 < Config.memSize ∧ c.2 ≠ resetByte c.1

/-- The cell listed at an address, if any. -/
def listedByte : Memory → Nat → Option Byte
  | [], _ => none
  | (k, b) :: m, a => if k = a then some b else listedByte m a

/-- `MemRead(a, 1)` at an address `a ≤ 0xFFF` (R51). The range check comes before it (`guardRange`, `fetch`). -/
def readByte (m : Memory) (a : Nat) : Byte := (listedByte m a).getD (resetByte a)

/-- Take an address off the list. -/
def dropCell (m : Memory) (a : Nat) : Memory := m.filter (fun c => c.1 != a)

/-- List a cell in its place among rising addresses. -/
def placeCell : Memory → Nat → Byte → Memory
  | [], a, b => [(a, b)]
  | c :: m, a, b => if c.1 < a then c :: placeCell m a b else (a, b) :: c :: m

/-- `MemWrite(a, 1, b)` at an address `a ≤ 0xFFF` (R51); there is no cell above. The range check comes before it
(`guardRange`, `loadProgram`). Writing what the address reads as unlisted takes it off the list. -/
def writeByte (m : Memory) (a : Nat) (b : Byte) : Memory :=
  if Config.memSize ≤ a then m
  else if b = resetByte a then dropCell m a
  else placeCell (dropCell m a) a b

/-- Write bytes at ascending addresses from `a` on (R53). -/
def writeBytes : Memory → Nat → List Byte → Memory
  | m, _, [] => m
  | m, a, b :: bs => writeBytes (writeByte m a b) (a + 1) bs

/-- The byte memory holds at an address. -/
def State.byteAt (s : State) (a : Nat) : Byte := readByte s.mem a

/-! ### General registers (10_state.md R21) -/

/-- `V[x]` -/
def State.reg (s : State) (x : Nibble) : Byte := s.v[x.toNat]'(x.isLt)

/-- `V[x] <- b` -/
def State.setReg (s : State) (x : Nibble) (b : Byte) : State := { s with v := s.v.set x.toNat b x.isLt }

/-! ### The program counter (10_state.md R24, 40_engine_cycle.md R102) -/

/-- `pc <- target` -/
def State.setPc (s : State) (target : Word) : State := { s with pc := target }

/-- `pc <- pc + 2`: the advance after the fetch (R102). -/
def State.advance (s : State) : State := { s with pc := s.pc + 2 }

/-- A taken skip adds a further 2 to the advanced `pc`; otherwise it is left (R124). -/
def State.skipIf (s : State) (condition : Bool) : State := if condition then s.advance else s

/-- `pc <- pc - 2`: the key-wait retry undoes the advance (R192). -/
def State.rollBack (s : State) : State := { s with pc := s.pc - 2 }

/-! ### The index register (10_state.md R23) -/

/-- `I <- value` -/
def State.setIndex (s : State) (value : Word) : State := { s with index := value }

/-! ### The call stack (10_state.md R25) -/

/-- Push: `stack[sp] <- w; sp <- sp + 1`, possible only when `sp < 16`. -/
def State.push (s : State) (w : Word) : Option State :=
  if h : s.sp.val < 16 then
    some { s with stack := s.stack.set s.sp.val w h, sp := ⟨s.sp.val + 1, Nat.succ_lt_succ h⟩ }
  else none

/-- Pop: `sp <- sp - 1; w = stack[sp]`, possible only when `sp > 0`; the popped cell keeps its value (D34; log 29). -/
def State.pop (s : State) : Option (Word × State) :=
  if h : s.sp.val = 0 then none
  else
    have below : s.sp.val - 1 < 16 := by have := s.sp.isLt; omega
    some (s.stack[s.sp.val - 1], { s with sp := ⟨s.sp.val - 1, Nat.lt_succ_of_lt below⟩ })

/-! ### The framebuffer (10_state.md R27) -/

/-- The framebuffer's 2048 cells, held as 32 rows of 64 (log 30). -/
abbrev Framebuffer := Vector (BitVec 64) 32

/-- `fb[k]`: bit `k mod 64` of row `k div 64`. -/
def cellOf (fb : Framebuffer) (k : Nat) : Bool := (fb[k / 64]?.getD 0).getLsbD (k % 64)

/-- `fb[k]` -/
def State.cell (s : State) (k : Nat) : Bool := cellOf s.fb k

/-- `fb[k] <- fb[k] ^ 1`, for `k` below 2048; there is no cell above. -/
def toggleCell (fb : Framebuffer) (k : Nat) : Framebuffer :=
  if h : k / 64 < 32 then fb.set (k / 64) (fb[k / 64] ^^^ BitVec.twoPow 64 (k % 64)) h else fb

/-! ### Taking a fault (60_exceptions.md R220, R230) -/

/-- Take a fault: save nothing, change nothing, go nowhere inside the machine; the outcome names the cause and the
command's writes are discarded (R104, R230, D10; log 9). There is no return from a fault (R231): the state before the
command stands, and the host goes on from it if it wants to (`runCommand`). -/
def raise (f : Fault) : Result := .fault f

/-- The code of a cause (R220, D11; log 10). -/
def faultCode : Fault → Nat
  | .stackOverflow _ => 1
  | .stackUnderflow _ => 2
  | .memoryBounds _ => 3
  | .fetchBounds _ => 4
  | .keyIndex _ => 5

/-- The info value a cause records (R220). -/
def faultInfo : Fault → Nat
  | .stackOverflow a => a.toNat
  | .stackUnderflow a => a.toNat
  | .memoryBounds a => a.toNat
  | .fetchBounds a => a.toNat
  | .keyIndex v => v.toNat

/-! ### Transfers through `I` (20_memory.md R51, R65; 43_index_memory.md R163 to R165) -/

/-- The lowest address of a transfer at `I` that exceeds 0xFFF: `max(I, 0x1000)` (R220). -/
def State.firstOutOfRange (s : State) : Word := if s.index.toNat < 0x1000 then 0x1000 else s.index

/-- The range check of a transfer of `count` bytes at `I`, made over the unbounded integers and before anything is
written: MemoryBounds when `count > 0` and `I + count - 1 > 0xFFF` (R51, R223, D27; log 28). -/
def State.guardRange (s : State) (count : Nat) (inRange : Result) : Result :=
  if 0 < count ∧ 0xFFF < s.index.toNat + count - 1 then raise (.memoryBounds s.firstOutOfRange) else inRange

/-- Store bytes at `I`, `I + 1`, … ; `I` is not changed (R163, R164). -/
def State.storeAtIndex (s : State) (bytes : List Byte) : State :=
  { s with mem := writeBytes s.mem s.index.toNat bytes }

/-- The `count` bytes at `I`, `I + 1`, … (R165, R181). -/
def State.bytesAtIndex (s : State) (count : Nat) : List Byte :=
  (List.range count).map (fun k => s.byteAt (s.index.toNat + k))

/-- `V[0]` to `V[x]` take the bytes at `I` to `I + x`; registers above `x` are unchanged (R165). -/
def State.loadFromIndex (s : State) (x : Nibble) : State :=
  { s with v := s.v.mapIdx (fun k old => if k ≤ x.toNat then s.byteAt (s.index.toNat + k) else old) }

/-! ### The fetch (40_engine_cycle.md R101) -/

/-- Fetch the opcode at `pc`: two bytes, the high byte first; none when `pc > 0xFFE` (R52, R101, D12; log 11). There is
no alignment check (R54, D13; log 12). -/
def State.fetch (s : State) : Option Word :=
  if 0xFFE < s.pc.toNat then none
  else some (opcodeOfBytes (s.byteAt s.pc.toNat) (s.byteAt (s.pc.toNat + 1)))

/-- Place an opcode where the next fetch reads it, with no host command in front of it. -/
def State.placeOpcode (s : State) (opcode : Word) : State :=
  { s with
    mem := writeBytes s.mem s.pc.toNat [opcodeHigh opcode, opcodeLow opcode]
    commands := [] }

end Sys2Proof.Machine
end

