-- ==== Sys2Proof/Machine/Flags.lean ====
section
/-!
DEFINITION. The flag computations (42_alu.md R152) and the order of the two writes (R153). `V[15]` is the only flag
(10_state.md R22).
-/

namespace Sys2Proof.Machine

/-- `V[15]`, the flag register (R22). -/
def flagReg : Nibble := 15

/-- A flag as a byte: 1 or 0. -/
def flagByte (b : Bool) : Byte := if b then 1 else 0

/-- AddReg: 1 iff the unsigned sum exceeds 255 (R146). -/
def carryFlag (p q : Byte) : Byte := flagByte (decide (255 < p.toNat + q.toNat))

/-- Sub and SubN: 1 iff `p - q` does not borrow, that is `p ≥ q` (R147, R149). -/
def noBorrowFlag (p q : Byte) : Byte := flagByte (decide (q.toNat ≤ p.toNat))

/-- Shr: the original bit 0 (R148). -/
def lowBitFlag (p : Byte) : Byte := flagByte (p.getLsbD 0)

/-- Shl: the original bit 7 (R150). -/
def highBitFlag (p : Byte) : Byte := flagByte (p.getLsbD 7)

/-- Write the result to `V[x]`, then the flag to `V[15]`: the flag is what remains when `x = 15` (R153, D8; log 20). -/
def State.setResultThenFlag (s : State) (x : Nibble) (result flag : Byte) : State :=
  (s.setReg x result).setReg flagReg flag

end Sys2Proof.Machine
end

