-- ==== Sys2Proof/Machine/Operands.lean ====
section
/-!
DEFINITION. The operand forms (30_encoding.md R73; 20_memory.md R65): how the fields of an opcode and the registers they
name become the values an instruction works on.
-/

namespace Sys2Proof.Machine

/-- `zext_16(nnn)`: a 12-bit address written to `pc` or `I` (R73). -/
def zextAddr (nnn : Addr12) : Word := nnn.setWidth 16

/-- `zext_16(V[x])` -/
def zextByte (b : Byte) : Word := b.setWidth 16

/-- `zext_8(k)`: a key number written to a register (R192). -/
def zextKey (k : Nibble) : Byte := k.setWidth 8

/-- The target of JumpOffset: `zext_16(nnn) + zext_16(V[0])`, at most 0x10FE, not reduced to 12 bits (R123, D5; log 17). -/
def State.offsetTarget (s : State) (nnn : Addr12) : Word := zextAddr nnn + zextByte (s.reg 0)

/-- The address of a glyph: `FONT_BASE + 5 * V[x]`, with no masking of `V[x]` (R162, D26; log 27). -/
def glyphAddress (b : Byte) : Word := BitVec.ofNat 16 (fontBase + 5 * b.toNat)

/-- The three decimal digits of a byte, hundreds first (R163). -/
def bcdDigits (b : Byte) : List Byte :=
  [BitVec.ofNat 8 (b.toNat / 100), BitVec.ofNat 8 (b.toNat / 10 % 10), BitVec.ofNat 8 (b.toNat % 10)]

/-- `V[0]` to `V[x]`, in that order (R164). -/
def State.regsUpTo (s : State) (x : Nibble) : List Byte := s.v.toList.take (x.toNat + 1)

/-- The column of a sprite's anchor: `V[x] mod 64` (R181). -/
def State.anchorColumn (s : State) (x : Nibble) : Nat := (s.reg x).toNat % Config.fbWidth

/-- The row of a sprite's anchor: `V[y] mod 32` (R181). -/
def State.anchorRow (s : State) (y : Nibble) : Nat := (s.reg y).toNat % Config.fbHeight

/-- The `rnd` input of the cycle (R100, R209): the byte the host drives, else a free one (R151, D31; log 5). -/
def State.rnd (s : State) : Byte :=
  match s.rndIn with
  | some r => r
  | none => Config.rnd s.draws

/-- The key a register names: its state, or KeyIndex when the value is above 15, not masked (R190, D14; log 13). -/
def State.withKey (s : State) (x : Nibble) (use : Bool → Result) : Result :=
  if h : (s.reg x).toNat < 16 then use s.keypad[(s.reg x).toNat] else raise (.keyIndex (s.reg x))

end Sys2Proof.Machine
end

