-- ==== Sys2Proof/Machine/Alu.lean ====
section
/-!
DEFINITION. Register loads, arithmetic, logic, shifts, Random (42_alu.md R140 to R153). None can fault; each reads its
operands from the state before any write (R153).
-/

namespace Sys2Proof.Machine

/-- LoadImm Vx, kk (R140). -/
def execLoadImm (x : Nibble) (kk : Byte) (s : State) : Result := .next (s.advance.setReg x kk)

/-- AddImm Vx, kk (R141): wraps, writes no flag. -/
def execAddImm (x : Nibble) (kk : Byte) (s : State) : Result := .next (s.advance.setReg x (s.reg x + kk))

/-- LoadReg Vx, Vy (R142). -/
def execLoadReg (x y : Nibble) (s : State) : Result := .next (s.advance.setReg x (s.reg y))

/-- Or Vx, Vy (R143): no flag. -/
def execOr (x y : Nibble) (s : State) : Result := .next (s.advance.setReg x (s.reg x ||| s.reg y))

/-- And Vx, Vy (R144): no flag. -/
def execAnd (x y : Nibble) (s : State) : Result := .next (s.advance.setReg x (s.reg x &&& s.reg y))

/-- Xor Vx, Vy (R145): no flag. -/
def execXor (x y : Nibble) (s : State) : Result := .next (s.advance.setReg x (s.reg x ^^^ s.reg y))

/-- AddReg Vx, Vy (R146). -/
def execAddReg (x y : Nibble) (s : State) : Result :=
  .next (s.advance.setResultThenFlag x (s.reg x + s.reg y) (carryFlag (s.reg x) (s.reg y)))

/-- Sub Vx, Vy (R147): `Vx - Vy`. -/
def execSub (x y : Nibble) (s : State) : Result :=
  .next (s.advance.setResultThenFlag x (s.reg x - s.reg y) (noBorrowFlag (s.reg x) (s.reg y)))

/-- Shr Vx, Vy (R148): `V[x]` in place, `V[y]` neither read nor written (D7; log 19). -/
def execShr (x _y : Nibble) (s : State) : Result :=
  .next (s.advance.setResultThenFlag x (s.reg x >>> 1) (lowBitFlag (s.reg x)))

/-- SubN Vx, Vy (R149): `Vy - Vx`, to `V[x]` (log 21). -/
def execSubN (x y : Nibble) (s : State) : Result :=
  .next (s.advance.setResultThenFlag x (s.reg y - s.reg x) (noBorrowFlag (s.reg y) (s.reg x)))

/-- Shl Vx, Vy (R150): `V[x]` in place, `V[y]` neither read nor written (D7; log 19). -/
def execShl (x _y : Nibble) (s : State) : Result :=
  .next (s.advance.setResultThenFlag x (s.reg x <<< 1) (highBitFlag (s.reg x)))

/-- Random Vx, kk (R151): the free input `rnd`, masked; the next Random draws another (log 5). -/
def execRandom (x : Nibble) (kk : Byte) (s : State) : Result :=
  .next { s.advance.setReg x (s.rnd &&& kk) with draws := s.draws + 1 }

end Sys2Proof.Machine
end

