-- ==== Sys2Proof/Machine/ControlFlow.lean ====
section
/-!
DEFINITION. Control transfer (41_control_flow.md R120 to R128). A meaning takes the state at the instruction's address `a`,
advances `pc` (40_engine_cycle.md R102) and then does what its rule's pseudocode says.
-/

namespace Sys2Proof.Machine

/-- Jump nnn (R120). -/
def execJump (nnn : Addr12) (s : State) : Result := .next (s.advance.setPc (zextAddr nnn))

/-- Call nnn (R121): push the advanced `pc`; StackOverflow with the address of the Call when `sp = 16` (D9; log 22). -/
def execCall (nnn : Addr12) (s : State) : Result :=
  match s.advance.push s.advance.pc with
  | some t => .next (t.setPc (zextAddr nnn))
  | none => raise (.stackOverflow s.pc)

/-- Return (R122): pop into `pc`; StackUnderflow with the address of the Return when `sp = 0` (D9; log 22). -/
def execRet (s : State) : Result :=
  match s.advance.pop with
  | some (w, t) => .next (t.setPc w)
  | none => raise (.stackUnderflow s.pc)

/-- JumpOffset nnn (R123). -/
def execJumpOffset (nnn : Addr12) (s : State) : Result := .next (s.advance.setPc (s.offsetTarget nnn))

/-- SkipEqImm Vx, kk (R124). -/
def execSkipEqImm (x : Nibble) (kk : Byte) (s : State) : Result := .next (s.advance.skipIf (s.reg x == kk))

/-- SkipNeImm Vx, kk (R125). -/
def execSkipNeImm (x : Nibble) (kk : Byte) (s : State) : Result := .next (s.advance.skipIf (s.reg x != kk))

/-- SkipEqReg Vx, Vy (R126). -/
def execSkipEqReg (x y : Nibble) (s : State) : Result := .next (s.advance.skipIf (s.reg x == s.reg y))

/-- SkipNeReg Vx, Vy (R127). -/
def execSkipNeReg (x y : Nibble) (s : State) : Result := .next (s.advance.skipIf (s.reg x != s.reg y))

end Sys2Proof.Machine
end

