-- ==== Sys2Proof/Machine/Display.lean ====
section
/-!
DEFINITION. Framebuffer write-back (44_display.md R180 to R182).
-/

namespace Sys2Proof.Machine

/-- The framebuffer and the collision flag while a sprite is drawn. -/
structure Canvas where
  fb : Framebuffer
  collision : Bool
deriving DecidableEq, Repr

/-- One 1 bit of a sprite meets cell `k`: the collision check, then the toggle (R181). -/
def Canvas.hit (c : Canvas) (k : Nat) : Canvas :=
  { fb := toggleCell c.fb k, collision := c.collision || cellOf c.fb k }

/-- Sprite bit at column offset `col` of a row byte, bit 7 leftmost, drawn at column `x0 + col` of row `cy`; columns right
of the grid are clipped (R181, D6; log 18). -/
def Canvas.drawBit (c : Canvas) (b : Byte) (x0 cy col : Nat) : Canvas :=
  if x0 + col ≤ 63 ∧ b.getLsbD (7 - col) = true then c.hit (cy * 64 + (x0 + col)) else c

/-- One sprite row, its 8 bits from the left; rows below the grid are clipped (R181). -/
def Canvas.drawRow (c : Canvas) (b : Byte) (x0 cy : Nat) : Canvas :=
  if cy ≤ 31 then (List.range 8).foldl (fun c col => c.drawBit b x0 cy col) c else c

/-- The sprite's rows from the top, at rows `cy`, `cy + 1`, … (R181). -/
def Canvas.drawRows : Canvas → List Byte → Nat → Nat → Canvas
  | c, [], _, _ => c
  | c, b :: bs, x0, cy => (c.drawRow b x0 cy).drawRows bs x0 (cy + 1)

/-- ClearScreen (R180). -/
def execClearScreen (s : State) : Result := .next { s.advance with fb := Vector.replicate 32 0 }

/-- Draw Vx, Vy, n (R181): the anchor is sampled before `V[15]` is written (D21; log 24); all `n` bytes are checked before
any change, clipped rows included, and `n = 0` reads nothing (D20; log 23). -/
def execDraw (x y n : Nibble) (s : State) : Result :=
  let drawn := ({ fb := s.fb, collision := false } : Canvas).drawRows
    (s.bytesAtIndex n.toNat) (s.anchorColumn x) (s.anchorRow y)
  s.guardRange n.toNat (.next { s.advance.setReg flagReg (flagByte drawn.collision) with fb := drawn.fb })

end Sys2Proof.Machine
end

