-- ==== Sys2Proof/Machine/IndexMemory.lean ====
section
/-!
DEFINITION. The index register and memory transfers (43_index_memory.md R160 to R166).
-/

namespace Sys2Proof.Machine

/-- LoadIndex nnn (R160). -/
def execLoadIndex (nnn : Addr12) (s : State) : Result := .next (s.advance.setIndex (zextAddr nnn))

/-- AddIndex Vx (R161): modulo 65536, no flag (D4, D15; log 14). -/
def execAddIndex (x : Nibble) (s : State) : Result := .next (s.advance.setIndex (s.index + zextByte (s.reg x)))

/-- LoadFont Vx (R162). -/
def execLoadFont (x : Nibble) (s : State) : Result := .next (s.advance.setIndex (glyphAddress (s.reg x)))

/-- StoreBCD Vx (R163). -/
def execStoreBCD (x : Nibble) (s : State) : Result :=
  s.guardRange 3 (.next (s.advance.storeAtIndex (bcdDigits (s.reg x))))

/-- StoreRegs Vx (R164): `V[0]` to `V[x]`. -/
def execStoreRegs (x : Nibble) (s : State) : Result :=
  s.guardRange (x.toNat + 1) (.next (s.advance.storeAtIndex (s.regsUpTo x)))

/-- LoadRegs Vx (R165): `V[0]` to `V[x]`. -/
def execLoadRegs (x : Nibble) (s : State) : Result :=
  s.guardRange (x.toNat + 1) (.next (s.advance.loadFromIndex x))

end Sys2Proof.Machine
end

