-- ==== Sys2Proof/Machine/KeypadTimers.lean ====
section
/-!
DEFINITION. Keypad and timer instructions (45_keypad_timers.md R190 to R195).
-/

namespace Sys2Proof.Machine

/-- SkipKeyPressed Vx (R190). -/
def execSkipKeyPressed (x : Nibble) (s : State) : Result :=
  s.withKey x (fun pressed => .next (s.advance.skipIf pressed))

/-- SkipKeyNotPressed Vx (R191). -/
def execSkipKeyNotPressed (x : Nibble) (s : State) : Result :=
  s.withKey x (fun pressed => .next (s.advance.skipIf (!pressed)))

/-- WaitKey Vx (R192): consume the latch, or roll `pc` back so that the same instruction is fetched again; that the cycle
then reports `WaitingForKey` is `cycleOutcome` (log 8). -/
def execWaitKey (x : Nibble) (s : State) : Result :=
  match s.pendingKey with
  | some k => .next { s.advance.setReg x (zextKey k) with pendingKey := none }
  | none => .next s.advance.rollBack

/-- LoadDelay Vx (R193). -/
def execLoadDelay (x : Nibble) (s : State) : Result := .next (s.advance.setReg x s.dt)

/-- FSetDelay Vx (R194). -/
def execFSetDelay (x : Nibble) (s : State) : Result := .next { s.advance with dt := s.reg x }

/-- FSetSound Vx (R195): the audio signal is not written. -/
def execFSetSound (x : Nibble) (s : State) : Result := .next { s.advance with st := s.reg x }

end Sys2Proof.Machine
end

