-- ==== Sys2Proof/Machine/Cycle.lean ====
section
/-!
DEFINITION. The `cycle` command (40_engine_cycle.md R100 to R108): fetch, decode, apply, and what it reports.
-/

namespace Sys2Proof.Machine

/-- Unknown (R105): no effect but the advance; the diagnostic is `diagUnknown` (D30; log 7). -/
def execUnknown (s : State) : Result := .next s.advance

/-- Apply a decoded instruction. -/
def apply (d : Decoded) (s : State) : Result :=
  match d with
  | .defined i => exec i s
  | .unknown _ => execUnknown s

/-- The decoded instruction at `pc`, if its two bytes exist. -/
def State.decoded (s : State) : Option Decoded := s.fetch.map decode

/-- `cycle` (R100): FetchBounds where there is nothing to fetch (R101), else the decoded instruction's effect. A fault
discards every write (R104). -/
def cycle (s : State) : Result :=
  match s.decoded with
  | some d => apply d s
  | none => raise (.fetchBounds s.pc)

/-- Does the cycle that starts in this state stall: is its instruction a WaitKey with no key latched (R106, R192)? -/
def State.stalls (s : State) : Bool :=
  match s.decoded with
  | some (.defined (.waitKey _)) => s.pendingKey.isNone
  | _ => false

/-- The outcome of the cycle that starts in this state (R106). -/
def cycleOutcome (s : State) : CycleOutcome :=
  match cycle s with
  | .next _ => if s.stalls then .waitingForKey else .normal
  | .fault f => .fault f
  | .refused r => .refused r

/-- `diag_unknown` of the cycle that starts in this state: the opcode of an Unknown, else none (R105, R226). -/
def diagUnknown (s : State) : Option Word :=
  match s.decoded with
  | some (.unknown w) => some w
  | _ => none

end Sys2Proof.Machine
end

