-- ==== Sys2Proof/Machine/HostOps.lean ====
section
/-!
DEFINITION. The host commands (47_host_operations.md R200 to R211), the timer step (60_exceptions.md R233), and which
agent a step belongs to (00_scope.md R6).
-/

namespace Sys2Proof.Machine

/-- `reset` (R200, R250): the whole Machine State takes its reset values; the inputs, which are no part of it, stay
(log 4). -/
def State.hostReset (s : State) : State :=
  { State.reset with commands := s.commands, rndIn := s.rndIn, draws := s.draws }

/-- `load_program(bytes)` (R201): none is `LoadError`, which writes nothing; success writes the image bytes at 0x200 and
nothing else (D22; log 25). -/
def State.loadProgram (s : State) (bytes : List Byte) : Option State :=
  if Config.progMax < bytes.length then none
  else some { s with mem := writeBytes s.mem Config.progBase bytes }

/-- `step_timers` (R233): each counter is decremented if it is above 0; the signal says whether `ST` was. -/
def State.stepTimers (s : State) : State :=
  { s with
    dt := if s.dt = 0 then s.dt else s.dt - 1
    st := if s.st = 0 then s.st else s.st - 1
    audioActive := decide (s.st ≠ 0) }

/-- `set_key(index, pressed)` (R203): a press always overwrites the latch, a release leaves it (D23; log 26). -/
def State.setKey (s : State) (k : Nibble) (pressed : Bool) : State :=
  { s with
    keypad := s.keypad.set k.toNat pressed k.isLt
    pendingKey := if pressed then some k else s.pendingKey }

/-- `framebuffer()` (R204): the 2048 cells, row-major, cell 0 first. -/
def State.grid (s : State) : List Bool := (List.range 2048).map s.cell

/-- Keep a driven `rnd` byte for the one cycle it was given for. -/
def restoreRnd (r : Option Byte) : Result → Result
  | .next t => .next { t with rndIn := r }
  | .fault f => .fault f
  | .refused e => .refused e

/-- The state after a command and what it answers. After a faulting cycle the state is the one before it (R104, D10;
log 9). -/
def runCommand (c : Command) (s : State) : State × Response :=
  match c with
  | .reset => (s.hostReset, .done)
  | .loadProgram bytes =>
    match s.loadProgram bytes with
    | some t => (t, .ok)
    | none => (s, .loadError)
  | .cycle r =>
    let driven := { s with rndIn := some r }
    let answer := Response.cycled (cycleOutcome driven) (diagUnknown driven)
    match restoreRnd s.rndIn (cycle driven) with
    | .next t => (t, answer)
    | _ => (s, answer)
  | .stepTimers => (s.stepTimers, .done)
  | .setKey k pressed => (s.setKey k pressed, .done)
  | .setDelayTimer b => ({ s with dt := b }, .done)
  | .setSoundTimer b => ({ s with st := b }, .done)
  | .framebuffer => (s, .grid s.grid)
  | .delayTimer => (s, .byte s.dt)
  | .soundTimer => (s, .byte s.st)
  | .audioActive => (s, .bit s.audioActive)

/-- One step of the machine: the oldest command of the host's queue, and with an empty queue a `cycle` (log 6). -/
def runStep (s : State) : Result :=
  match s.commands with
  | [] => cycle s
  | .cycle r :: rest => restoreRnd s.rndIn (cycle { s with commands := rest, rndIn := some r })
  | c :: rest => .next (runCommand c { s with commands := rest }).1

end Sys2Proof.Machine
end

