-- ==== Sys2Proof/Machine/Step.lean ====
section
/-!
DEFINITION. The step, and the host's way to place one instruction where the next step fetches it.
-/

namespace Sys2Proof.Machine

/-- One step: a host command if one is queued, else one `cycle` (R6, R100; log 6). -/
def step (s : State) : Host.Outcome State Fault Refusal := runStep s

/-- The state with the opcode table's bits `w` as the instruction the next step fetches and runs. -/
def State.withFetchWord (s : State) (nbits w : Nat) : State := s.placeOpcode (BitVec.ofNat 16 (w % 2 ^ nbits))

end Sys2Proof.Machine
end

