-- ==== Sys2Proof/Safety.lean ====
section
/-!
DEFINITION. The terms claims are stated in: what can be seen of a state, a frame, the invariant of reachable states, a
run without a fault, and the pixels of a sprite.
-/

namespace Sys2Proof.Machine

/-- Everything a state is made of, one name for each cell of R20, and after it the model's own fields. -/
inductive Part where
  | reg (x : Nibble)
  | index
  | pc
  | stackCell (k : Fin 16)
  | sp
  | byte (address : Nat)
  | cell (k : Nat)
  | delayTimer
  | soundTimer
  | key (k : Nibble)
  | latch
  | audio
  | commands
  | rndIn
  | draws
deriving DecidableEq, Repr

/-- What is seen when one part of a state is looked at. -/
inductive Seen where
  | byte (b : Byte)
  | word (w : Word)
  | number (n : Nat)
  | bit (b : Bool)
  | key (k : Option Nibble)
  | commands (c : List Command)
  | input (b : Option Byte)
deriving DecidableEq, Repr

/-- Look at one part of a state; memory is seen through the read of one byte, the framebuffer through one cell. -/
def observe (s : State) : Part → Seen
  | .reg x => .byte (s.reg x)
  | .index => .word s.index
  | .pc => .word s.pc
  | .stackCell k => .word s.stack[k.val]
  | .sp => .number s.sp.val
  | .byte a => .byte (s.byteAt a)
  | .cell k => .bit (s.cell k)
  | .delayTimer => .byte s.dt
  | .soundTimer => .byte s.st
  | .key k => .bit (s.keypad[k.toNat]'(k.isLt))
  | .latch => .key s.pendingKey
  | .audio => .bit s.audioActive
  | .commands => .commands s.commands
  | .rndIn => .input s.rndIn
  | .draws => .number s.draws

/-- The frame: from `s` to `t` nothing changes but the parts named by `changed`. -/
def OnlyChanges (changed : Part → Prop) (s t : State) : Prop :=
  ∀ p, ¬ changed p → observe t p = observe s p

/-- The invariant of reachable states (10_state.md R34), as far as the types do not already say it: memory is in its
canonical form, `pc ≤ 0x10FE`, and every valid stack cell holds an advanced `pc`, 2 to 0x1000. -/
def State.Inv (s : State) : Prop :=
  Memory.wf s.mem ∧ s.pc.toNat ≤ 0x10FE ∧
    ∀ k : Fin 16, k.val < s.sp.val → 2 ≤ s.stack[k.val].toNat ∧ s.stack[k.val].toNat ≤ 0x1000

/-- A safe run: `n` steps none of which returns a fault (60_exceptions.md R230: "every claim about a program takes "no
cycle returned Fault" as a premise or proves it"). -/
def State.runsFaultFree (s : State) (n : Nat) : Prop := ∃ t, Sys2Proof.core.run n s = .next t

/-- Is the pixel at column `cx`, row `cy` a 1 bit of the sprite that Draw Vx, Vy, n draws in state `s`: row `cy - y0` of
the sprite is the byte at `I + (cy - y0)`, and its bit 7 is the leftmost (44_display.md R181)? -/
def spritePixel (s : State) (x y n : Nibble) (cx cy : Nat) : Prop :=
  let x0 := (s.reg x).toNat % 64
  let y0 := (s.reg y).toNat % 32
  (x0 ≤ cx ∧ cx < x0 + 8) ∧ (y0 ≤ cy ∧ cy < y0 + n.toNat) ∧
    (s.byteAt (s.index.toNat + (cy - y0))).getLsbD (7 - (cx - x0)) = true

end Sys2Proof.Machine
end

