-- ==== Sys2Proof/WellFormed.lean ====
section
/-!
DEFINITION. Which syntax the core can be given. The fields of an `Instr` are bit vectors of exactly the width R71 gives
them, so every `Instr` is an instruction ("register index always ≤15 by construction of the decoder", 30_encoding.md
R73). What can be ill-formed is an Unknown: R80 gives that name only to an opcode that matches no row of R84.
-/

namespace Sys2Proof

/-- Does an opcode match some row of the opcode map (R83)? -/
def inOpcodeMap (w : Word) : Bool := opcodeRows.any (fun r => r.matchesWord w)

/-- A decoder's answer is well formed when an Unknown carries an opcode that matches no row (R80). -/
def Decoded.wellFormed : Decoded → Bool
  | .defined _ => true
  | .unknown w => !inOpcodeMap w

end Sys2Proof
end

