-- ==== Sys2Proof/Certificates/Slice0/Obligations.lean ====
section
/-!
DEFINITION. The statements for the provers. A frame is said with `OnlyChanges`: every part of the state but those named is
as before, memory seen byte by byte and the framebuffer cell by cell. `exec i s` takes the state at the instruction's
address, so `s.pc` is the spec's `a`. A statement whose clause rests on one of the spec's own decisions (D<n>) or the
model's choices (log <n>) has basis "derived" and says which.
-/

open Sys2Proof Sys2Proof.Machine

/-! ### The decoder (30_encoding.md) -/

/-- R85: the decode examples the source gives. -/
def Obligations.DecodeGivesTheSourceExamples : Prop :=
  decode 0x00E0 = .defined .clearScreen ∧ decode 0x1ABC = .defined (.jump 0xABC) ∧
    decode 0x8010 = .defined (.loadReg 0 1)

/-- Decode and encode agree: every well-formed answer of the decoder, defined instruction or Unknown, is what its own word
decodes to, with every operand at every value the encoding admits. Rests on the opcode map (30_encoding.md sections 2 to 6
and 8; D3, D4, D17). -/
def Obligations.DecodeOfEncodeIsIdentity : Prop :=
  (∀ i : Instr, decode (encode i) = .defined i) ∧
    ∀ d : Decoded, d.wellFormed = true → decode (encodeDecoded d) = d

/-- The other direction: a word that decodes to an instruction is the word of that instruction, but for the nibble 11:8
that format OP ignores (30_encoding.md sections 3 and 5; D17). -/
def Obligations.EncodeOfDecodeLosesOnlyTheIgnoredNibble : Prop :=
  ∀ (w : Word) (i : Instr), decode w = .defined i →
    encode i = w ∨ ((i = .clearScreen ∨ i = .ret) ∧ encode i = w &&& 0xF0FF)

/-- Unknown is the answer for exactly the opcodes that match no row of the map, and it carries the opcode itself
(30_encoding.md sections 5, 6 and 8). -/
def Obligations.UnknownExactlyWhenNoRowMatches : Prop :=
  ∀ w : Word, (decode w = .unknown w ↔ inOpcodeMap w = false) ∧ ∀ o, decode w = .unknown o → o = w

/-- An opcode that matches a row decodes to an instruction of that row, so no opcode matches two rows (30_encoding.md
section 8). -/
def Obligations.MatchingRowNamesTheInstruction : Prop :=
  ∀ w : Word, ∀ r ∈ opcodeRows, r.matchesWord w = true →
    (∃ i, decode w = .defined i ∧ rowNumber i = r.number) ∧
      ∀ r' ∈ opcodeRows, r'.matchesWord w = true → r' = r

/-! ### The cycle (40_engine_cycle.md, 60_exceptions.md) -/

/-- A step runs the decoded instruction: with no host command queued, and the two bytes at `pc` (high byte first) decoding
to `i`, the step is `exec i` in that state; with a queued `cycle` command it is `exec i` with that command taken off and
its byte driven on the `rnd` input, which afterwards is as it was (the queue is the model's choice, log 6). -/
def Obligations.StepRunsTheDecodedInstruction : Prop :=
  ∀ (s : State) (i : Instr), s.pc.toNat ≤ 0xFFE →
    decode (opcodeOfBytes (s.byteAt s.pc.toNat) (s.byteAt (s.pc.toNat + 1))) = .defined i →
    (s.commands = [] → step s = exec i s) ∧
    ∀ r rest, s.commands = .cycle r :: rest →
      step s = restoreRnd s.rndIn (exec i { s with commands := rest, rndIn := some r })

/-- Any other queued host command is applied whole as one step, oldest first (the queue is the model's choice, log 6; the
commands are R202's). -/
def Obligations.StepAppliesTheOldestHostCommand : Prop :=
  ∀ (s : State) (c : Command) (rest : List Command), s.commands = c :: rest → (∀ r, c ≠ .cycle r) →
    step s = .next (runCommand c { s with commands := rest }).1

/-- An Unknown opcode changes nothing but `pc`, the outcome is Normal, the diagnostic carries the opcode; zeroed memory is
Unknown (40_engine_cycle.md, Unknown; D30 for the diagnostic). So for the cycle of an empty queue, for a queued `cycle`
command, which leaves the queue as well (log 6), and for the `cycle` command at the interface, whatever `rnd` is. -/
def Obligations.UnknownOnlyAdvancesAndReports : Prop :=
  decode 0x0000 = .unknown 0x0000 ∧
  ∀ (s : State) (w o : Word), s.fetch = some w → decode w = .unknown o →
    (s.commands = [] → ∃ t, step s = .next t ∧ t.pc = s.pc + 2 ∧ OnlyChanges (· = .pc) s t) ∧
    (∀ r rest, s.commands = .cycle r :: rest → ∃ t, step s = .next t ∧ t.pc = s.pc + 2 ∧ t.commands = rest ∧
      OnlyChanges (fun p => p = .pc ∨ p = .commands) s t) ∧
    (∀ r, ∃ t, runCommand (.cycle r) s = (t, .cycled .normal (some w)) ∧ t.pc = s.pc + 2 ∧ OnlyChanges (· = .pc) s t) ∧
    cycleOutcome s = .normal ∧ diagUnknown s = some w

/-- A cycle entered with `pc > 0xFFE` raises FetchBounds, code 4, with `pc` as info, and only such a cycle does, be it the
cycle of an empty queue or a queued `cycle` command, whatever `rnd` is (D12, D11; the queue is log 6). -/
def Obligations.FetchBoundsExactlyAboveFFE : Prop :=
  ∀ s : State, (s.commands = [] ∨ ∃ r rest, s.commands = .cycle r :: rest) →
    (0xFFE < s.pc.toNat → step s = .fault (.fetchBounds s.pc)) ∧
    (∀ p, step s = .fault (.fetchBounds p) → 0xFFE < s.pc.toNat ∧ p = s.pc ∧
      faultCode (.fetchBounds p) = 4 ∧ faultInfo (.fetchBounds p) = s.pc.toNat)

/-- A faulting `cycle` command commits nothing, has no diagnostic, and issued again, with any `rnd`, raises the same fault
(D10). -/
def Obligations.FaultCommitsNothingAndRepeats : Prop :=
  ∀ (s t : State) (r : Byte) (f : Fault) (d : Option Word),
    runCommand (.cycle r) s = (t, .cycled (.fault f) d) →
    t = s ∧ ∀ r', runCommand (.cycle r') t = (s, .cycled (.fault f) none)

/-- Which instruction raises which fault, when, and with what info (60_exceptions.md sections 1 and 4; D9, D11, D14, D20,
D27, D29): no instruction has a second cause. -/
def Obligations.EachInstructionHasItsOneFault : Prop :=
  ∀ (i : Instr) (s : State) (f : Fault), exec i s = .fault f →
    ((∃ nnn, i = .call nnn) ∧ s.sp.val = 16 ∧ f = .stackOverflow s.pc) ∨
    (i = .ret ∧ s.sp.val = 0 ∧ f = .stackUnderflow s.pc) ∨
    (((∃ x y n, i = .draw x y n ∧ n ≠ 0 ∧ 0xFFF < s.index.toNat + n.toNat - 1) ∨
        (∃ x, i = .storeBCD x ∧ 0xFFF < s.index.toNat + 2) ∨
        (∃ x, (i = .storeRegs x ∨ i = .loadRegs x) ∧ 0xFFF < s.index.toNat + x.toNat)) ∧
      faultCode f = 3 ∧ faultInfo f = max s.index.toNat 0x1000) ∨
    (∃ x, (i = .skipKeyPressed x ∨ i = .skipKeyNotPressed x) ∧ 15 < (s.reg x).toNat ∧ f = .keyIndex (s.reg x))

/-- Every cycle in every state has one of the three outcomes of 40_engine_cycle.md section 7: it never is a refusal; it is
WaitingForKey exactly when the instruction at `pc` is a WaitKey with no key latched, and then the state is unchanged
(log 8); every other cycle that raises no fault is Normal. The diagnostic is the opcode of an Unknown and none on every
other cycle, a faulting or stalled one included (60_exceptions.md section 2; D30). -/
def Obligations.EveryCycleHasOneOfThreeOutcomes : Prop :=
  ∀ s : State,
    ((∃ t, cycle s = .next t) ∨ ∃ f, cycle s = .fault f ∧ cycleOutcome s = .fault f) ∧
    (∀ e, cycleOutcome s ≠ .refused e) ∧
    (cycleOutcome s = .waitingForKey ↔ s.pendingKey = none ∧ ∃ x, s.decoded = some (.defined (.waitKey x))) ∧
    (cycleOutcome s = .waitingForKey → cycle s = .next s) ∧
    (∀ t, cycle s = .next t → ¬ (s.pendingKey = none ∧ ∃ x, s.decoded = some (.defined (.waitKey x))) →
      cycleOutcome s = .normal) ∧
    (∀ w o, s.fetch = some w → decode w = .unknown o → diagUnknown s = some w) ∧
    ((∀ w o, s.fetch = some w → decode w ≠ .unknown o) → diagUnknown s = none)

/-- A cycle changes `DT` or `ST` only by FSetDelay and FSetSound, never writes `audio_active` or `keypad`, and never sets
`pending_key`: it can only clear it, by WaitKey (40_engine_cycle.md section 9). It leaves the model's own fields
`commands` and `rndIn` as they are, which are inputs and the model's choice (log 4). -/
def Obligations.CycleLeavesTimersKeypadAndAudio : Prop :=
  ∀ s t : State, cycle s = .next t →
    (t.dt ≠ s.dt → ∃ x, s.decoded = some (.defined (.fSetDelay x))) ∧
    (t.st ≠ s.st → ∃ x, s.decoded = some (.defined (.fSetSound x))) ∧
    t.audioActive = s.audioActive ∧ t.keypad = s.keypad ∧
    (t.pendingKey ≠ s.pendingKey → t.pendingKey = none ∧ ∃ x, s.decoded = some (.defined (.waitKey x))) ∧
    t.commands = s.commands ∧ t.rndIn = s.rndIn

/-- `V[15]` changes only under the six flag-writing instructions or an instruction that names it as its destination: by
`x = 15`, which for LoadRegs includes it in `V[0]` to `V[x]` (10_state.md section 3; D15 for AddIndex). -/
def Obligations.OnlySixInstructionsWriteTheFlagUnnamed : Prop :=
  ∀ (i : Instr) (s t : State), exec i s = .next t → t.reg 15 ≠ s.reg 15 →
    (∃ x y, i = .addReg x y ∨ i = .sub x y ∨ i = .shr x y ∨ i = .subN x y ∨ i = .shl x y) ∨
    (∃ x y n, i = .draw x y n) ∨
    (∃ kk, i = .loadImm 15 kk ∨ i = .addImm 15 kk ∨ i = .random 15 kk) ∨
    (∃ y, i = .loadReg 15 y ∨ i = .orReg 15 y ∨ i = .andReg 15 y ∨ i = .xorReg 15 y) ∨
    i = .loadDelay 15 ∨ i = .waitKey 15 ∨ i = .loadRegs 15

/-- Only Random reads the `rnd` input: any other instruction does the same whatever byte is driven (42_alu.md section 2,
47_host_operations.md; D31; the input is the model's field, log 5). -/
def Obligations.OnlyRandomReadsTheRndInput : Prop :=
  ∀ (i : Instr) (s : State) (r : Option Byte), (∀ x kk, i ≠ .random x kk) →
    exec i { s with rndIn := r } = restoreRnd r (exec i s)

/-! ### Reset and the invariant (10_state.md R33, R34) -/

/-- The invariant of reachable states holds after reset. -/
def Obligations.ResetMeetsTheInvariant : Prop := State.reset.Inv

/-- Every step, a cycle or a host command, keeps the invariant of R34: memory in its canonical form, `pc ≤ 0x10FE`, every
valid stack cell an advanced `pc` in 2 to 0x1000. Rests on D9 and D12 (10_state.md section 15). -/
def Obligations.EveryStepKeepsTheInvariant : Prop :=
  ∀ s t : State, s.Inv → step s = .next t → t.Inv

/-- What the `reset` command leaves, in any state: the values of the table of 10_state.md section 14. Memory, font
placement, `pc`, `sp` and the timers are the source's; the font bytes are D2's, the rest D16's and D28's (log 1, log 3).
The inputs, which are no part of the Machine State, stay (log 4). -/
def Obligations.ResetCommandLeavesTheTable : Prop :=
  ∀ s : State, ∃ t, runCommand .reset s = (t, .done) ∧
    t.pc = 0x200 ∧ t.sp.val = 0 ∧ t.dt = 0 ∧ t.st = 0 ∧ t.index = 0 ∧ t.pendingKey = none ∧ t.audioActive = false ∧
    (∀ x, t.reg x = 0) ∧ (∀ k : Fin 16, t.stack[k.val] = 0) ∧ (∀ k : Fin 16, t.keypad[k.val] = false) ∧
    (∀ k, t.cell k = false) ∧
    (∀ a, a < 0x050 ∨ 0x09F < a → t.byteAt a = 0) ∧
    (List.range 80).map (fun k => t.byteAt (0x050 + k)) =
      [0xF0, 0x90, 0x90, 0x90, 0xF0, 0x20, 0x60, 0x20, 0x20, 0x70, 0xF0, 0x10, 0xF0, 0x80, 0xF0, 0xF0, 0x10, 0xF0, 0x10, 0xF0,
       0x90, 0x90, 0xF0, 0x10, 0x10, 0xF0, 0x80, 0xF0, 0x10, 0xF0, 0xF0, 0x80, 0xF0, 0x90, 0xF0, 0xF0, 0x10, 0x20, 0x40, 0x40,
       0xF0, 0x90, 0xF0, 0x90, 0xF0, 0xF0, 0x90, 0xF0, 0x10, 0xF0, 0xF0, 0x90, 0xF0, 0x90, 0x90, 0xE0, 0x90, 0xE0, 0x90, 0xE0,
       0xF0, 0x80, 0x80, 0x80, 0xF0, 0xE0, 0x90, 0x90, 0x90, 0xE0, 0xF0, 0x80, 0xF0, 0x80, 0xF0, 0xF0, 0x80, 0xF0, 0x80, 0x80] ∧
    t.commands = s.commands ∧ t.rndIn = s.rndIn ∧ t.draws = s.draws

/-! ### Control transfer (41_control_flow.md) -/

/-- Jump sets `pc` to the zero-extended target, whatever the target, and changes nothing else; at address `nnn` it leaves
the whole state unchanged (41_control_flow.md, Jump). -/
def Obligations.JumpSetsPcOnly : Prop :=
  ∀ (nnn : Addr12) (s : State), decode (0x1#4 ++ nnn) = .defined (.jump nnn) ∧
    ∃ t, exec (.jump nnn) s = .next t ∧ t.pc.toNat = nnn.toNat ∧ OnlyChanges (· = .pc) s t ∧
      (s.pc.toNat = nnn.toNat → t = s)

/-- JumpOffset: `pc` becomes `nnn + V[0]`, not reduced to 12 bits; nothing else changes (D5). -/
def Obligations.JumpOffsetAddsVZero : Prop :=
  ∀ (nnn : Addr12) (s : State), decode (0xB#4 ++ nnn) = .defined (.jumpOffset nnn) ∧
    ∃ t, exec (.jumpOffset nnn) s = .next t ∧ t.pc.toNat = nnn.toNat + (s.reg 0).toNat ∧ OnlyChanges (· = .pc) s t

/-- R124, R125: the skips on an immediate. A taken skip leaves `pc = a + 4`, else `a + 2`; nothing else changes. -/
def Obligations.SkipsOnImmediateCompare : Prop :=
  ∀ (x : Nibble) (kk : Byte) (s : State),
    decode (0x3#4 ++ (x ++ kk)) = .defined (.skipEqImm x kk) ∧
    decode (0x4#4 ++ (x ++ kk)) = .defined (.skipNeImm x kk) ∧
    (∃ t, exec (.skipEqImm x kk) s = .next t ∧
      t.pc = (if (s.reg x).toNat = kk.toNat then s.pc + 4 else s.pc + 2) ∧ OnlyChanges (· = .pc) s t) ∧
    (∃ t, exec (.skipNeImm x kk) s = .next t ∧
      t.pc = (if (s.reg x).toNat = kk.toNat then s.pc + 2 else s.pc + 4) ∧ OnlyChanges (· = .pc) s t)

/-- R126, R127: the skips on two registers, `x = y` included; `n` must be 0. -/
def Obligations.SkipsOnRegisterCompare : Prop :=
  ∀ (x y : Nibble) (s : State),
    (∀ n : Nibble, decode (0x5#4 ++ (x ++ (y ++ n))) =
      if n = 0 then .defined (.skipEqReg x y) else .unknown (0x5#4 ++ (x ++ (y ++ n)))) ∧
    (∀ n : Nibble, decode (0x9#4 ++ (x ++ (y ++ n))) =
      if n = 0 then .defined (.skipNeReg x y) else .unknown (0x9#4 ++ (x ++ (y ++ n)))) ∧
    (∃ t, exec (.skipEqReg x y) s = .next t ∧
      t.pc = (if (s.reg x).toNat = (s.reg y).toNat then s.pc + 4 else s.pc + 2) ∧ OnlyChanges (· = .pc) s t) ∧
    (∃ t, exec (.skipNeReg x y) s = .next t ∧
      t.pc = (if (s.reg x).toNat = (s.reg y).toNat then s.pc + 2 else s.pc + 4) ∧ OnlyChanges (· = .pc) s t)

/-- Call with `sp < 16` pushes the address of the next instruction and jumps; only `pc`, `sp` and the pushed cell change
(41_control_flow.md, Call; the condition is D9's). -/
def Obligations.CallPushesTheReturnAddress : Prop :=
  ∀ (nnn : Addr12) (s : State) (h : s.sp.val < 16),
    ∃ t, exec (.call nnn) s = .next t ∧ t.stack[s.sp.val] = s.pc + 2 ∧ t.sp.val = s.sp.val + 1 ∧
      t.pc.toNat = nnn.toNat ∧
      OnlyChanges (fun p => p = .pc ∨ p = .sp ∨ p = .stackCell ⟨s.sp.val, h⟩) s t

/-- Return with `sp > 0` pops the top cell into `pc`; only `pc` and `sp` change, the popped cell keeps its value
(41_control_flow.md, Return; the condition is D9's, the kept cell D34's). -/
def Obligations.ReturnPopsIntoPc : Prop :=
  ∀ (s : State), 0 < s.sp.val →
    ∃ t, exec .ret s = .next t ∧ s.stack[s.sp.val - 1]? = some t.pc ∧ t.sp.val + 1 = s.sp.val ∧
      OnlyChanges (fun p => p = .pc ∨ p = .sp) s t

/-- The stack policy: Call with a full stack and Return with an empty one stop with their faults, codes 1 and 2, and the
address of the instruction (D9, D11). -/
def Obligations.StackFaultsAtTheLimits : Prop :=
  ∀ (nnn : Addr12) (s : State),
    (s.sp.val = 16 → ∃ f, exec (.call nnn) s = .fault f ∧ faultCode f = 1 ∧ faultInfo f = s.pc.toNat) ∧
    (s.sp.val = 0 → ∃ f, exec .ret s = .fault f ∧ faultCode f = 2 ∧ faultInfo f = s.pc.toNat)

/-- A Call followed by a Return restores `pc` to the instruction after the Call and `sp` to what it was; only `pc` and one
cell above the valid ones differ (41_control_flow.md, Call; D9, D34). -/
def Obligations.CallThenReturnComesBack : Prop :=
  ∀ (nnn : Addr12) (s : State) (h : s.sp.val < 16),
    ∃ t u, exec (.call nnn) s = .next t ∧ exec .ret t = .next u ∧ u.pc = s.pc + 2 ∧ u.sp = s.sp ∧
      OnlyChanges (fun p => p = .pc ∨ p = .stackCell ⟨s.sp.val, h⟩) s u

/-! ### Loads, arithmetic, logic, shifts, random (42_alu.md) -/

/-- R140: LoadImm. -/
def Obligations.LoadImmWritesTheImmediate : Prop :=
  ∀ (x : Nibble) (kk : Byte) (s : State), decode (0x6#4 ++ (x ++ kk)) = .defined (.loadImm x kk) ∧
    ∃ t, exec (.loadImm x kk) s = .next t ∧ t.reg x = kk ∧ t.pc = s.pc + 2 ∧
      OnlyChanges (fun p => p = .reg x ∨ p = .pc) s t

/-- R141: AddImm wraps modulo 256 and writes no flag: unless `x = 15`, `V[15]` is in the frame. -/
def Obligations.AddImmWrapsWithoutFlag : Prop :=
  ∀ (x : Nibble) (kk : Byte) (s : State), decode (0x7#4 ++ (x ++ kk)) = .defined (.addImm x kk) ∧
    ∃ t, exec (.addImm x kk) s = .next t ∧ (t.reg x).toNat = ((s.reg x).toNat + kk.toNat) % 256 ∧ t.pc = s.pc + 2 ∧
      OnlyChanges (fun p => p = .reg x ∨ p = .pc) s t

/-- R142: LoadReg, `x = y` included. -/
def Obligations.LoadRegCopiesVy : Prop :=
  ∀ (x y : Nibble) (s : State), decode (0x8#4 ++ (x ++ (y ++ 0x0#4))) = .defined (.loadReg x y) ∧
    ∃ t, exec (.loadReg x y) s = .next t ∧ t.reg x = s.reg y ∧ t.pc = s.pc + 2 ∧
      OnlyChanges (fun p => p = .reg x ∨ p = .pc) s t

/-- Or, And, Xor, bit by bit, with no flag; Xor of a register with itself is 0, Or and And of one with itself change nothing
but `pc` (42_alu.md, Or, And, Xor; the encodings are D3's). -/
def Obligations.LogicIsBitwiseWithoutFlag : Prop :=
  ∀ (x y : Nibble) (s : State),
    decode (0x8#4 ++ (x ++ (y ++ 0x1#4))) = .defined (.orReg x y) ∧
    decode (0x8#4 ++ (x ++ (y ++ 0x2#4))) = .defined (.andReg x y) ∧
    decode (0x8#4 ++ (x ++ (y ++ 0x3#4))) = .defined (.xorReg x y) ∧
    (∃ t, exec (.orReg x y) s = .next t ∧ t.pc = s.pc + 2 ∧ OnlyChanges (fun p => p = .reg x ∨ p = .pc) s t ∧
      (∀ k, (t.reg x).getLsbD k = ((s.reg x).getLsbD k || (s.reg y).getLsbD k)) ∧ (x = y → t.reg x = s.reg x)) ∧
    (∃ t, exec (.andReg x y) s = .next t ∧ t.pc = s.pc + 2 ∧ OnlyChanges (fun p => p = .reg x ∨ p = .pc) s t ∧
      (∀ k, (t.reg x).getLsbD k = ((s.reg x).getLsbD k && (s.reg y).getLsbD k)) ∧ (x = y → t.reg x = s.reg x)) ∧
    (∃ t, exec (.xorReg x y) s = .next t ∧ t.pc = s.pc + 2 ∧ OnlyChanges (fun p => p = .reg x ∨ p = .pc) s t ∧
      (∀ k, (t.reg x).getLsbD k = ((s.reg x).getLsbD k ^^ (s.reg y).getLsbD k)) ∧ (x = y → t.reg x = 0))

/-- AddReg: the sum modulo 256 to `V[x]`, then the carry to `V[15]`; for `x = 15` the carry is what remains (42_alu.md;
the order of the writes is D8's). -/
def Obligations.AddRegSumsAndCarries : Prop :=
  ∀ (x y : Nibble) (s : State), ∃ t, exec (.addReg x y) s = .next t ∧
    t.reg 15 = (if 255 < (s.reg x).toNat + (s.reg y).toNat then 1 else 0) ∧
    (x ≠ 15 → (t.reg x).toNat = ((s.reg x).toNat + (s.reg y).toNat) % 256) ∧ t.pc = s.pc + 2 ∧
    OnlyChanges (fun p => p = .reg x ∨ p = .reg 15 ∨ p = .pc) s t

/-- Sub is `Vx - Vy` and SubN is `Vy - Vx`, both to `V[x]`, wrapping; `V[15]` is 1 iff there is no borrow, and is what
remains for `x = 15` (42_alu.md; D8; the destination of SubN is from general knowledge). -/
def Obligations.SubtractionsWrapAndReportNoBorrow : Prop :=
  ∀ (x y : Nibble) (s : State),
    (∃ t, exec (.sub x y) s = .next t ∧
      t.reg 15 = (if (s.reg y).toNat ≤ (s.reg x).toNat then 1 else 0) ∧
      (x ≠ 15 → ((t.reg x).toNat : Int) = ((s.reg x).toNat - (s.reg y).toNat : Int) % 256) ∧ t.pc = s.pc + 2 ∧
      OnlyChanges (fun p => p = .reg x ∨ p = .reg 15 ∨ p = .pc) s t) ∧
    (∃ t, exec (.subN x y) s = .next t ∧
      t.reg 15 = (if (s.reg x).toNat ≤ (s.reg y).toNat then 1 else 0) ∧
      (x ≠ 15 → ((t.reg x).toNat : Int) = ((s.reg y).toNat - (s.reg x).toNat : Int) % 256) ∧ t.pc = s.pc + 2 ∧
      OnlyChanges (fun p => p = .reg x ∨ p = .reg 15 ∨ p = .pc) s t)

/-- Shr and Shl move `V[x]` one place in place, a zero enters, and `V[15]` is the bit that left, also for `x = 15`; `y` is
ignored (42_alu.md; D7, D8). -/
def Obligations.ShiftsMoveOneBitAndReportIt : Prop :=
  ∀ (x y : Nibble) (s : State),
    (∃ t, exec (.shr x y) s = .next t ∧ t.reg 15 = (if (s.reg x).toNat % 2 = 1 then 1 else 0) ∧
      (x ≠ 15 → (t.reg x).toNat = (s.reg x).toNat / 2) ∧ t.pc = s.pc + 2 ∧
      OnlyChanges (fun p => p = .reg x ∨ p = .reg 15 ∨ p = .pc) s t) ∧
    (∃ t, exec (.shl x y) s = .next t ∧ t.reg 15 = (if 128 ≤ (s.reg x).toNat then 1 else 0) ∧
      (x ≠ 15 → (t.reg x).toNat = (s.reg x).toNat * 2 % 256) ∧ t.pc = s.pc + 2 ∧
      OnlyChanges (fun p => p = .reg x ∨ p = .reg 15 ∨ p = .pc) s t)

/-- Random: `V[x]` is the `rnd` input masked with `kk`: the byte the host drives where it drives one, else a free byte.
Whatever byte it is, a bit that is 0 in `kk` is 0 in the result (42_alu.md, Random; D31; the input is the model's field,
log 5). -/
def Obligations.RandomIsTheMaskedInput : Prop :=
  ∀ (x : Nibble) (kk : Byte) (s : State), ∃ t, exec (.random x kk) s = .next t ∧
    (∀ r, s.rndIn = some r → t.reg x = r &&& kk) ∧
    (s.rndIn = none → t.reg x = Config.rnd s.draws &&& kk) ∧
    (∀ k, kk.getLsbD k = false → (t.reg x).getLsbD k = false) ∧ t.pc = s.pc + 2 ∧ t.draws = s.draws + 1 ∧
    OnlyChanges (fun p => p = .reg x ∨ p = .pc ∨ p = .draws) s t

/-! ### Index register and memory transfers (43_index_memory.md) -/

/-- R160: LoadIndex. -/
def Obligations.LoadIndexWritesI : Prop :=
  ∀ (nnn : Addr12) (s : State), decode (0xA#4 ++ nnn) = .defined (.loadIndex nnn) ∧
    ∃ t, exec (.loadIndex nnn) s = .next t ∧ t.index.toNat = nnn.toNat ∧ t.pc = s.pc + 2 ∧
      OnlyChanges (fun p => p = .index ∨ p = .pc) s t

/-- AddIndex: modulo 65536, no flag, whatever the sum (43_index_memory.md, AddIndex; D4, D15). -/
def Obligations.AddIndexWrapsAtSixteenBits : Prop :=
  ∀ (x : Nibble) (s : State), ∃ t, exec (.addIndex x) s = .next t ∧
    t.index.toNat = (s.index.toNat + (s.reg x).toNat) % 65536 ∧ t.pc = s.pc + 2 ∧
    OnlyChanges (fun p => p = .index ∨ p = .pc) s t

/-- LoadFont: `I = FONT_BASE + 5 * V[x]` for every value of `V[x]`, not masked, with `FONT_BASE = 0x050`
(43_index_memory.md, LoadFont; D1, D26). -/
def Obligations.LoadFontPointsAtTheGlyph : Prop :=
  ∀ (x : Nibble) (s : State), ∃ t, exec (.loadFont x) s = .next t ∧
    t.index.toNat = 0x050 + 5 * (s.reg x).toNat ∧ t.pc = s.pc + 2 ∧
    OnlyChanges (fun p => p = .index ∨ p = .pc) s t

/-- StoreBCD with `I + 2 ≤ 0xFFF`: the three digits at `I`, `I + 1`, `I + 2`; no other byte, not `I` (43_index_memory.md,
StoreBCD; D27). -/
def Obligations.StoreBCDStoresThreeDigits : Prop :=
  ∀ (x : Nibble) (s : State), s.index.toNat + 2 ≤ 0xFFF → ∃ t, exec (.storeBCD x) s = .next t ∧
    (t.byteAt s.index.toNat).toNat = (s.reg x).toNat / 100 ∧
    (t.byteAt (s.index.toNat + 1)).toNat = (s.reg x).toNat / 10 % 10 ∧
    (t.byteAt (s.index.toNat + 2)).toNat = (s.reg x).toNat % 10 ∧ t.pc = s.pc + 2 ∧
    OnlyChanges (fun p => (∃ k, k < 3 ∧ p = .byte (s.index.toNat + k)) ∨ p = .pc) s t

/-- StoreRegs with `I + x ≤ 0xFFF`: `V[k]` at `I + k` for `k` from 0 to `x`; no other byte, not `I` (43_index_memory.md,
StoreRegs; D4, D27). -/
def Obligations.StoreRegsStoresVZeroToVx : Prop :=
  ∀ (x : Nibble) (s : State), s.index.toNat + x.toNat ≤ 0xFFF → ∃ t, exec (.storeRegs x) s = .next t ∧
    (∀ k : Nibble, k ≤ x → t.byteAt (s.index.toNat + k.toNat) = s.reg k) ∧ t.pc = s.pc + 2 ∧
    OnlyChanges (fun p => (∃ k, k ≤ x.toNat ∧ p = .byte (s.index.toNat + k)) ∨ p = .pc) s t

/-- LoadRegs with `I + x ≤ 0xFFF`: `V[k]` from `I + k` for `k` from 0 to `x`; registers above `x`, `I` and memory are
unchanged (43_index_memory.md, LoadRegs; D4, D27). -/
def Obligations.LoadRegsLoadsVZeroToVx : Prop :=
  ∀ (x : Nibble) (s : State), s.index.toNat + x.toNat ≤ 0xFFF → ∃ t, exec (.loadRegs x) s = .next t ∧
    (∀ k : Nibble, k ≤ x → t.reg k = s.byteAt (s.index.toNat + k.toNat)) ∧ t.pc = s.pc + 2 ∧
    OnlyChanges (fun p => (∃ k : Nibble, k ≤ x ∧ p = .reg k) ∨ p = .pc) s t

/-- A transfer that reaches above 0xFFF stops with MemoryBounds, code 3, its info the lowest such address: Draw with
`n > 0`, StoreBCD, StoreRegs, LoadRegs (60_exceptions.md, MemoryBounds; D11, D20, D27). -/
def Obligations.OverrunningTransfersFault : Prop :=
  ∀ (x y n : Nibble) (s : State),
    (n ≠ 0 → 0xFFF < s.index.toNat + n.toNat - 1 → ∃ f, exec (.draw x y n) s = .fault f ∧ faultCode f = 3 ∧
      faultInfo f = max s.index.toNat 0x1000) ∧
    (0xFFF < s.index.toNat + 2 → ∃ f, exec (.storeBCD x) s = .fault f ∧ faultCode f = 3 ∧
      faultInfo f = max s.index.toNat 0x1000) ∧
    (0xFFF < s.index.toNat + x.toNat → ∃ f, exec (.storeRegs x) s = .fault f ∧ faultCode f = 3 ∧
      faultInfo f = max s.index.toNat 0x1000) ∧
    (0xFFF < s.index.toNat + x.toNat → ∃ f, exec (.loadRegs x) s = .fault f ∧ faultCode f = 3 ∧
      faultInfo f = max s.index.toNat 0x1000)

/-- StoreRegs and then LoadRegs of no more registers, at the same `I`, give the registers back: only memory and `pc` differ
(43_index_memory.md, StoreRegs and LoadRegs; D27). -/
def Obligations.StoreThenLoadRegsGivesThemBack : Prop :=
  ∀ (x y : Nibble) (s : State), y ≤ x → s.index.toNat + x.toNat ≤ 0xFFF →
    ∃ t u, exec (.storeRegs x) s = .next t ∧ exec (.loadRegs y) t = .next u ∧ (∀ k, u.reg k = s.reg k) ∧
      u.pc = s.pc + 4 ∧ OnlyChanges (fun p => (∃ k, k ≤ x.toNat ∧ p = .byte (s.index.toNat + k)) ∨ p = .pc) s u

/-- A store is seen by the next fetch, with nothing between: after StoreRegs, a fetch inside the stored bytes reads the
register at the lower address as the high byte (20_memory.md sections 3 and 7). -/
def Obligations.StoredBytesAreFetched : Prop :=
  ∀ (x k l : Nibble) (s t : State), exec (.storeRegs x) s = .next t → l ≤ x → k.toNat + 1 = l.toNat →
    t.pc.toNat = s.index.toNat + k.toNat →
    t.fetch = some (s.reg k ++ s.reg l)

/-! ### Framebuffer (44_display.md) -/

/-- ClearScreen: all 2048 cells 0, `V[15]` and everything else unchanged (44_display.md, ClearScreen); the nibble 11:8 does
not matter (D17, C7). -/
def Obligations.ClearScreenClearsEveryCell : Prop :=
  ∀ (z : Nibble) (s : State), decode (0x0#4 ++ (z ++ 0xE0#8)) = .defined .clearScreen ∧
    ∃ t, exec .clearScreen s = .next t ∧ (∀ k, k < 2048 → t.cell k = false) ∧ t.pc = s.pc + 2 ∧
      OnlyChanges (fun p => (∃ k, k < 2048 ∧ p = .cell k) ∨ p = .pc) s t

/-- Draw, when its `n` bytes exist: every cell of the grid is toggled iff it is a 1 pixel of the clipped sprite at the
wrapped anchor, and `V[15]` is 1 iff one of those cells was 1, else 0; only cells, `V[15]` and `pc` change. The anchor is
that of the state before, also for `x = 15` or `y = 15`; `n = 0` needs no byte (44_display.md, Draw; D6, D20, D21). -/
def Obligations.DrawTogglesExactlyTheSprite : Prop :=
  ∀ (x y n : Nibble) (s : State), (n = 0 ∨ s.index.toNat + n.toNat - 1 ≤ 0xFFF) →
    ∃ t, exec (.draw x y n) s = .next t ∧
      (∀ cx cy, cx < 64 → cy < 32 →
        (spritePixel s x y n cx cy → t.cell (cy * 64 + cx) = !s.cell (cy * 64 + cx)) ∧
        (¬ spritePixel s x y n cx cy → t.cell (cy * 64 + cx) = s.cell (cy * 64 + cx))) ∧
      ((∃ cx cy, cx < 64 ∧ cy < 32 ∧ spritePixel s x y n cx cy ∧ s.cell (cy * 64 + cx) = true) → t.reg 15 = 1) ∧
      ((¬ ∃ cx cy, cx < 64 ∧ cy < 32 ∧ spritePixel s x y n cx cy ∧ s.cell (cy * 64 + cx) = true) → t.reg 15 = 0) ∧
      t.pc = s.pc + 2 ∧
      OnlyChanges (fun p => (∃ k, k < 2048 ∧ p = .cell k) ∨ p = .reg 15 ∨ p = .pc) s t

/-- Drawing the same sprite at the same place twice restores the framebuffer, and the second draw collides if a 1 pixel of
the sprite is lit after the first. The second draw may name other registers: what counts is the anchor, `n`, `I` and the
bytes (44_display.md, properties of Draw; D6, D20, D21). -/
def Obligations.DrawTwiceRestoresTheScreen : Prop :=
  ∀ (x y x' y' n : Nibble) (s t u w : State), exec (.draw x y n) s = .next t →
    u.fb = t.fb → u.index = s.index →
    (u.reg x').toNat % 64 = (s.reg x).toNat % 64 → (u.reg y').toNat % 32 = (s.reg y).toNat % 32 →
    (∀ r, r < n.toNat → u.byteAt (s.index.toNat + r) = s.byteAt (s.index.toNat + r)) →
    exec (.draw x' y' n) u = .next w →
    (∀ k, k < 2048 → w.cell k = s.cell k) ∧
    ((∃ cx cy, cx < 64 ∧ cy < 32 ∧ spritePixel s x y n cx cy ∧ t.cell (cy * 64 + cx) = true) → w.reg 15 = 1)

/-! ### Keypad and timer instructions (45_keypad_timers.md) -/

/-- The keypad skips with `V[x] ≤ 15`: they read the keypad at `V[x]` and change `pc` only; the latch is not read
(45_keypad_timers.md, SkipKeyPressed and SkipKeyNotPressed; the condition is D14's). -/
def Obligations.KeySkipsReadTheKeypad : Prop :=
  ∀ (x : Nibble) (s : State) (h : (s.reg x).toNat < 16),
    (∃ t, exec (.skipKeyPressed x) s = .next t ∧
      t.pc = (if s.keypad[(s.reg x).toNat] = true then s.pc + 4 else s.pc + 2) ∧ OnlyChanges (· = .pc) s t) ∧
    (∃ t, exec (.skipKeyNotPressed x) s = .next t ∧
      t.pc = (if s.keypad[(s.reg x).toNat] = true then s.pc + 2 else s.pc + 4) ∧ OnlyChanges (· = .pc) s t)

/-- The keypad skips with `V[x] > 15` stop with KeyIndex, code 5, info `V[x]`, not masked (D11, D14). -/
def Obligations.KeySkipsFaultAboveFifteen : Prop :=
  ∀ (x : Nibble) (s : State), 15 < (s.reg x).toNat →
    (∃ f, exec (.skipKeyPressed x) s = .fault f ∧ faultCode f = 5 ∧ faultInfo f = (s.reg x).toNat) ∧
    (∃ f, exec (.skipKeyNotPressed x) s = .fault f ∧ faultCode f = 5 ∧ faultInfo f = (s.reg x).toNat)

/-- WaitKey: with no key latched the whole state stays as it was and the cycle reports WaitingForKey; with one, it is
stored, the latch is cleared, `pc` advances once and the cycle reports Normal. The keypad is neither read nor changed
(45_keypad_timers.md, WaitKey; the encoding is D4's). -/
def Obligations.WaitKeyStallsOrConsumesTheLatch : Prop :=
  ∀ (x : Nibble) (s : State), decode (0xF#4 ++ (x ++ 0x0A#8)) = .defined (.waitKey x) ∧
    (s.pendingKey = none → exec (.waitKey x) s = .next s ∧
      (s.decoded = some (.defined (.waitKey x)) → cycle s = .next s ∧ cycleOutcome s = .waitingForKey)) ∧
    ∀ k, s.pendingKey = some k →
      (∃ t, exec (.waitKey x) s = .next t ∧ (t.reg x).toNat = k.toNat ∧ t.pendingKey = none ∧ t.pc = s.pc + 2 ∧
        OnlyChanges (fun p => p = .reg x ∨ p = .latch ∨ p = .pc) s t) ∧
      (s.decoded = some (.defined (.waitKey x)) → cycleOutcome s = .normal)

/-- LoadDelay: `V[x]` takes `DT`, which is not changed (45_keypad_timers.md, LoadDelay; D4). -/
def Obligations.LoadDelayReadsDT : Prop :=
  ∀ (x : Nibble) (s : State), ∃ t, exec (.loadDelay x) s = .next t ∧ t.reg x = s.dt ∧ t.pc = s.pc + 2 ∧
    OnlyChanges (fun p => p = .reg x ∨ p = .pc) s t

/-- FSetDelay and FSetSound write one timer each; the audio signal is not written (45_keypad_timers.md, FSetDelay and
FSetSound; D4, D28). -/
def Obligations.TimerInstructionsWriteTheirTimer : Prop :=
  ∀ (x : Nibble) (s : State),
    (∃ t, exec (.fSetDelay x) s = .next t ∧ t.dt = s.reg x ∧ t.pc = s.pc + 2 ∧
      OnlyChanges (fun p => p = .delayTimer ∨ p = .pc) s t) ∧
    (∃ t, exec (.fSetSound x) s = .next t ∧ t.st = s.reg x ∧ t.pc = s.pc + 2 ∧
      OnlyChanges (fun p => p = .soundTimer ∨ p = .pc) s t)

/-! ### Host commands (47_host_operations.md, 60_exceptions.md section 7) -/

/-- R233: `step_timers`: each counter is decremented if above 0 and stays at 0 otherwise, independently; `audio_active` is 1
exactly when `ST` was above 0; nothing else is touched. -/
def Obligations.StepTimersDecrementsAndSignals : Prop :=
  ∀ s : State, ∃ t, runCommand .stepTimers s = (t, .done) ∧
    (0 < s.dt.toNat → t.dt.toNat + 1 = s.dt.toNat) ∧ (s.dt.toNat = 0 → t.dt.toNat = 0) ∧
    (0 < s.st.toNat → t.st.toNat + 1 = s.st.toNat ∧ t.audioActive = true) ∧
    (s.st.toNat = 0 → t.st.toNat = 0 ∧ t.audioActive = false) ∧
    OnlyChanges (fun p => p = .delayTimer ∨ p = .soundTimer ∨ p = .audio) s t

/-- The lag of the audio signal: after `n > 0` timer steps the counters are `n` lower, floored at 0, and the signal is on
exactly when `n` is at most the `ST` they began with: true after each of the `v` steps that find `ST > 0`, false at the
next (60_exceptions.md, the audio signal; C5). -/
def Obligations.AudioIsOnForExactlySTSteps : Prop :=
  ∀ (s : State) (n : Nat),
    ((State.stepTimers^[n] s).dt.toNat = s.dt.toNat - n) ∧ ((State.stepTimers^[n] s).st.toNat = s.st.toNat - n) ∧
    (0 < n → ((State.stepTimers^[n] s).audioActive = true ↔ n ≤ s.st.toNat))

/-- `set_key`: the keypad bit follows the event; a press latches, over any key latched before; a release leaves the latch
(47_host_operations.md, `set_key`; D23). -/
def Obligations.SetKeyLatchesEveryPress : Prop :=
  ∀ (k : Nibble) (s : State),
    (∃ t, runCommand (.setKey k true) s = (t, .done) ∧ t.keypad[k.toNat]'(k.isLt) = true ∧ t.pendingKey = some k ∧
      OnlyChanges (fun p => p = .key k ∨ p = .latch) s t) ∧
    (∃ t, runCommand (.setKey k false) s = (t, .done) ∧ t.keypad[k.toNat]'(k.isLt) = false ∧
      OnlyChanges (· = .key k) s t)

/-- `load_program`: up to 3584 bytes are placed at 0x200 and nothing else changes; a longer image is a LoadError that
writes nothing (47_host_operations.md, `load_program`; D22). -/
def Obligations.LoadProgramWritesTheImageOnly : Prop :=
  ∀ (bytes : List Byte) (s : State),
    (bytes.length ≤ 3584 → ∃ t, runCommand (.loadProgram bytes) s = (t, .ok) ∧
      (∀ k, (h : k < bytes.length) → t.byteAt (0x200 + k) = bytes[k]) ∧
      OnlyChanges (fun p => ∃ k, k < bytes.length ∧ p = .byte (0x200 + k)) s t) ∧
    (3584 < bytes.length → runCommand (.loadProgram bytes) s = (s, .loadError))

/-- The timer writers have exactly the effect of the register write of FSetDelay and FSetSound, and the reads answer the
value written and change nothing; none writes `audio_active` (47_host_operations.md, timer writers and reads; D28). -/
def Obligations.TimerWritersWriteOneTimer : Prop :=
  ∀ (b : Byte) (s : State),
    (∃ t, runCommand (.setDelayTimer b) s = (t, .done) ∧ OnlyChanges (· = .delayTimer) s t ∧
      runCommand .delayTimer t = (t, .byte b) ∧ runCommand .audioActive t = (t, .bit s.audioActive)) ∧
    (∃ t, runCommand (.setSoundTimer b) s = (t, .done) ∧ OnlyChanges (· = .soundTimer) s t ∧
      runCommand .soundTimer t = (t, .byte b) ∧ runCommand .audioActive t = (t, .bit s.audioActive)) ∧
    ∀ x, s.reg x = b →
      (∀ t, exec (.fSetDelay x) s = .next t → t.dt = (runCommand (.setDelayTimer b) s).1.dt) ∧
      (∀ t, exec (.fSetSound x) s = .next t → t.st = (runCommand (.setSoundTimer b) s).1.st)

/-- R204: `framebuffer()` answers all 2048 cells as they are, row-major, and changes nothing. -/
def Obligations.FramebufferReadsEveryCell : Prop :=
  ∀ s : State, ∃ cells, runCommand .framebuffer s = (s, .grid cells) ∧ cells.length = 2048 ∧
    ∀ cx cy, cx < 64 → cy < 32 → cells[cy * 64 + cx]? = some (s.cell (cy * 64 + cx))

/-- What the host cannot do: no command but `reset` and `cycle` touches a register, `I`, `pc`, the stack or a framebuffer
cell, or clears the latch, or touches a byte of memory below 0x200; and only `step_timers` among them writes the audio
signal (47_host_operations.md, host liberties and duties). -/
def Obligations.HostCannotReachTheProgramsState : Prop :=
  ∀ (c : Command) (s : State), c ≠ .reset → (∀ r, c ≠ .cycle r) →
    OnlyChanges (fun p => (∃ a, 0x200 ≤ a ∧ p = .byte a) ∨ p = .delayTimer ∨ p = .soundTimer ∨ (∃ k, p = .key k) ∨
      p = .latch ∨ p = .audio) s (runCommand c s).1 ∧
    ((runCommand c s).1.pendingKey = none → s.pendingKey = none) ∧
    ((runCommand c s).1.audioActive ≠ s.audioActive → c = .stepTimers)

/-- The `cycle` command, whether or not it faults: it leaves the next state of the cycle that has its byte driven on `rnd`,
with the input as it was, and answers that cycle's outcome and diagnostic; where that cycle faults, it leaves the state as
it was and answers the fault with no diagnostic (40_engine_cycle.md sections 1, 5 and 7; D10, D30; the input is the model's
field, log 5). Queued, it is a step to the state the command leaves, or that fault (log 6, log 9). -/
def Obligations.CycleCommandCommitsAndAnswers : Prop :=
  ∀ (r : Byte) (s : State),
    (∀ t, cycle { s with rndIn := some r } = .next t →
      runCommand (.cycle r) s = ({ t with rndIn := s.rndIn },
        .cycled (cycleOutcome { s with rndIn := some r }) (diagUnknown { s with rndIn := some r })) ∧
      step { s with commands := .cycle r :: s.commands } = .next (runCommand (.cycle r) s).1) ∧
    (∀ f, cycle { s with rndIn := some r } = .fault f →
      runCommand (.cycle r) s = (s, .cycled (.fault f) none) ∧
      step { s with commands := .cycle r :: s.commands } = .fault f)
end

