-- ==== Sys2Proof/Laws/State.lean ====
section
/-!
SUPPORT. The small lemmas of the state updates: for each named update and each field, what the field is after it.
-/

namespace Sys2Proof.Machine

variable (s : State)

/-! ### `State.setReg` -/

@[simp] theorem State.setReg_v (x : Nibble) (b : Byte) : (s.setReg x b).v = s.v.set x.toNat b x.isLt := rfl
@[simp] theorem State.setReg_index (x : Nibble) (b : Byte) : (s.setReg x b).index = s.index := rfl
@[simp] theorem State.setReg_pc (x : Nibble) (b : Byte) : (s.setReg x b).pc = s.pc := rfl
@[simp] theorem State.setReg_stack (x : Nibble) (b : Byte) : (s.setReg x b).stack = s.stack := rfl
@[simp] theorem State.setReg_sp (x : Nibble) (b : Byte) : (s.setReg x b).sp = s.sp := rfl
@[simp] theorem State.setReg_mem (x : Nibble) (b : Byte) : (s.setReg x b).mem = s.mem := rfl
@[simp] theorem State.setReg_fb (x : Nibble) (b : Byte) : (s.setReg x b).fb = s.fb := rfl
@[simp] theorem State.setReg_dt (x : Nibble) (b : Byte) : (s.setReg x b).dt = s.dt := rfl
@[simp] theorem State.setReg_st (x : Nibble) (b : Byte) : (s.setReg x b).st = s.st := rfl
@[simp] theorem State.setReg_keypad (x : Nibble) (b : Byte) : (s.setReg x b).keypad = s.keypad := rfl
@[simp] theorem State.setReg_pendingKey (x : Nibble) (b : Byte) : (s.setReg x b).pendingKey = s.pendingKey := rfl
@[simp] theorem State.setReg_audioActive (x : Nibble) (b : Byte) : (s.setReg x b).audioActive = s.audioActive := rfl
@[simp] theorem State.setReg_commands (x : Nibble) (b : Byte) : (s.setReg x b).commands = s.commands := rfl
@[simp] theorem State.setReg_rndIn (x : Nibble) (b : Byte) : (s.setReg x b).rndIn = s.rndIn := rfl
@[simp] theorem State.setReg_draws (x : Nibble) (b : Byte) : (s.setReg x b).draws = s.draws := rfl

/-! ### `State.setPc` -/

@[simp] theorem State.setPc_v (w : Word) : (s.setPc w).v = s.v := rfl
@[simp] theorem State.setPc_index (w : Word) : (s.setPc w).index = s.index := rfl
@[simp] theorem State.setPc_pc (w : Word) : (s.setPc w).pc = w := rfl
@[simp] theorem State.setPc_stack (w : Word) : (s.setPc w).stack = s.stack := rfl
@[simp] theorem State.setPc_sp (w : Word) : (s.setPc w).sp = s.sp := rfl
@[simp] theorem State.setPc_mem (w : Word) : (s.setPc w).mem = s.mem := rfl
@[simp] theorem State.setPc_fb (w : Word) : (s.setPc w).fb = s.fb := rfl
@[simp] theorem State.setPc_dt (w : Word) : (s.setPc w).dt = s.dt := rfl
@[simp] theorem State.setPc_st (w : Word) : (s.setPc w).st = s.st := rfl
@[simp] theorem State.setPc_keypad (w : Word) : (s.setPc w).keypad = s.keypad := rfl
@[simp] theorem State.setPc_pendingKey (w : Word) : (s.setPc w).pendingKey = s.pendingKey := rfl
@[simp] theorem State.setPc_audioActive (w : Word) : (s.setPc w).audioActive = s.audioActive := rfl
@[simp] theorem State.setPc_commands (w : Word) : (s.setPc w).commands = s.commands := rfl
@[simp] theorem State.setPc_rndIn (w : Word) : (s.setPc w).rndIn = s.rndIn := rfl
@[simp] theorem State.setPc_draws (w : Word) : (s.setPc w).draws = s.draws := rfl

/-! ### `State.advance` -/

@[simp] theorem State.advance_v : (s.advance).v = s.v := rfl
@[simp] theorem State.advance_index : (s.advance).index = s.index := rfl
@[simp] theorem State.advance_pc : (s.advance).pc = s.pc + 2 := rfl
@[simp] theorem State.advance_stack : (s.advance).stack = s.stack := rfl
@[simp] theorem State.advance_sp : (s.advance).sp = s.sp := rfl
@[simp] theorem State.advance_mem : (s.advance).mem = s.mem := rfl
@[simp] theorem State.advance_fb : (s.advance).fb = s.fb := rfl
@[simp] theorem State.advance_dt : (s.advance).dt = s.dt := rfl
@[simp] theorem State.advance_st : (s.advance).st = s.st := rfl
@[simp] theorem State.advance_keypad : (s.advance).keypad = s.keypad := rfl
@[simp] theorem State.advance_pendingKey : (s.advance).pendingKey = s.pendingKey := rfl
@[simp] theorem State.advance_audioActive : (s.advance).audioActive = s.audioActive := rfl
@[simp] theorem State.advance_commands : (s.advance).commands = s.commands := rfl
@[simp] theorem State.advance_rndIn : (s.advance).rndIn = s.rndIn := rfl
@[simp] theorem State.advance_draws : (s.advance).draws = s.draws := rfl

/-! ### `State.rollBack` -/

@[simp] theorem State.rollBack_v : (s.rollBack).v = s.v := rfl
@[simp] theorem State.rollBack_index : (s.rollBack).index = s.index := rfl
@[simp] theorem State.rollBack_pc : (s.rollBack).pc = s.pc - 2 := rfl
@[simp] theorem State.rollBack_stack : (s.rollBack).stack = s.stack := rfl
@[simp] theorem State.rollBack_sp : (s.rollBack).sp = s.sp := rfl
@[simp] theorem State.rollBack_mem : (s.rollBack).mem = s.mem := rfl
@[simp] theorem State.rollBack_fb : (s.rollBack).fb = s.fb := rfl
@[simp] theorem State.rollBack_dt : (s.rollBack).dt = s.dt := rfl
@[simp] theorem State.rollBack_st : (s.rollBack).st = s.st := rfl
@[simp] theorem State.rollBack_keypad : (s.rollBack).keypad = s.keypad := rfl
@[simp] theorem State.rollBack_pendingKey : (s.rollBack).pendingKey = s.pendingKey := rfl
@[simp] theorem State.rollBack_audioActive : (s.rollBack).audioActive = s.audioActive := rfl
@[simp] theorem State.rollBack_commands : (s.rollBack).commands = s.commands := rfl
@[simp] theorem State.rollBack_rndIn : (s.rollBack).rndIn = s.rndIn := rfl
@[simp] theorem State.rollBack_draws : (s.rollBack).draws = s.draws := rfl

/-! ### `State.setIndex` -/

@[simp] theorem State.setIndex_v (w : Word) : (s.setIndex w).v = s.v := rfl
@[simp] theorem State.setIndex_index (w : Word) : (s.setIndex w).index = w := rfl
@[simp] theorem State.setIndex_pc (w : Word) : (s.setIndex w).pc = s.pc := rfl
@[simp] theorem State.setIndex_stack (w : Word) : (s.setIndex w).stack = s.stack := rfl
@[simp] theorem State.setIndex_sp (w : Word) : (s.setIndex w).sp = s.sp := rfl
@[simp] theorem State.setIndex_mem (w : Word) : (s.setIndex w).mem = s.mem := rfl
@[simp] theorem State.setIndex_fb (w : Word) : (s.setIndex w).fb = s.fb := rfl
@[simp] theorem State.setIndex_dt (w : Word) : (s.setIndex w).dt = s.dt := rfl
@[simp] theorem State.setIndex_st (w : Word) : (s.setIndex w).st = s.st := rfl
@[simp] theorem State.setIndex_keypad (w : Word) : (s.setIndex w).keypad = s.keypad := rfl
@[simp] theorem State.setIndex_pendingKey (w : Word) : (s.setIndex w).pendingKey = s.pendingKey := rfl
@[simp] theorem State.setIndex_audioActive (w : Word) : (s.setIndex w).audioActive = s.audioActive := rfl
@[simp] theorem State.setIndex_commands (w : Word) : (s.setIndex w).commands = s.commands := rfl
@[simp] theorem State.setIndex_rndIn (w : Word) : (s.setIndex w).rndIn = s.rndIn := rfl
@[simp] theorem State.setIndex_draws (w : Word) : (s.setIndex w).draws = s.draws := rfl

/-! ### `State.storeAtIndex` -/

@[simp] theorem State.storeAtIndex_v (bs : List Byte) : (s.storeAtIndex bs).v = s.v := rfl
@[simp] theorem State.storeAtIndex_index (bs : List Byte) : (s.storeAtIndex bs).index = s.index := rfl
@[simp] theorem State.storeAtIndex_pc (bs : List Byte) : (s.storeAtIndex bs).pc = s.pc := rfl
@[simp] theorem State.storeAtIndex_stack (bs : List Byte) : (s.storeAtIndex bs).stack = s.stack := rfl
@[simp] theorem State.storeAtIndex_sp (bs : List Byte) : (s.storeAtIndex bs).sp = s.sp := rfl
@[simp] theorem State.storeAtIndex_mem (bs : List Byte) : (s.storeAtIndex bs).mem = writeBytes s.mem s.index.toNat bs := rfl
@[simp] theorem State.storeAtIndex_fb (bs : List Byte) : (s.storeAtIndex bs).fb = s.fb := rfl
@[simp] theorem State.storeAtIndex_dt (bs : List Byte) : (s.storeAtIndex bs).dt = s.dt := rfl
@[simp] theorem State.storeAtIndex_st (bs : List Byte) : (s.storeAtIndex bs).st = s.st := rfl
@[simp] theorem State.storeAtIndex_keypad (bs : List Byte) : (s.storeAtIndex bs).keypad = s.keypad := rfl
@[simp] theorem State.storeAtIndex_pendingKey (bs : List Byte) : (s.storeAtIndex bs).pendingKey = s.pendingKey := rfl
@[simp] theorem State.storeAtIndex_audioActive (bs : List Byte) : (s.storeAtIndex bs).audioActive = s.audioActive := rfl
@[simp] theorem State.storeAtIndex_commands (bs : List Byte) : (s.storeAtIndex bs).commands = s.commands := rfl
@[simp] theorem State.storeAtIndex_rndIn (bs : List Byte) : (s.storeAtIndex bs).rndIn = s.rndIn := rfl
@[simp] theorem State.storeAtIndex_draws (bs : List Byte) : (s.storeAtIndex bs).draws = s.draws := rfl

/-! ### `State.loadFromIndex` -/

@[simp] theorem State.loadFromIndex_v (x : Nibble) : (s.loadFromIndex x).v = s.v.mapIdx (fun k old => if k ≤ x.toNat then s.byteAt (s.index.toNat + k) else old) := rfl
@[simp] theorem State.loadFromIndex_index (x : Nibble) : (s.loadFromIndex x).index = s.index := rfl
@[simp] theorem State.loadFromIndex_pc (x : Nibble) : (s.loadFromIndex x).pc = s.pc := rfl
@[simp] theorem State.loadFromIndex_stack (x : Nibble) : (s.loadFromIndex x).stack = s.stack := rfl
@[simp] theorem State.loadFromIndex_sp (x : Nibble) : (s.loadFromIndex x).sp = s.sp := rfl
@[simp] theorem State.loadFromIndex_mem (x : Nibble) : (s.loadFromIndex x).mem = s.mem := rfl
@[simp] theorem State.loadFromIndex_fb (x : Nibble) : (s.loadFromIndex x).fb = s.fb := rfl
@[simp] theorem State.loadFromIndex_dt (x : Nibble) : (s.loadFromIndex x).dt = s.dt := rfl
@[simp] theorem State.loadFromIndex_st (x : Nibble) : (s.loadFromIndex x).st = s.st := rfl
@[simp] theorem State.loadFromIndex_keypad (x : Nibble) : (s.loadFromIndex x).keypad = s.keypad := rfl
@[simp] theorem State.loadFromIndex_pendingKey (x : Nibble) : (s.loadFromIndex x).pendingKey = s.pendingKey := rfl
@[simp] theorem State.loadFromIndex_audioActive (x : Nibble) : (s.loadFromIndex x).audioActive = s.audioActive := rfl
@[simp] theorem State.loadFromIndex_commands (x : Nibble) : (s.loadFromIndex x).commands = s.commands := rfl
@[simp] theorem State.loadFromIndex_rndIn (x : Nibble) : (s.loadFromIndex x).rndIn = s.rndIn := rfl
@[simp] theorem State.loadFromIndex_draws (x : Nibble) : (s.loadFromIndex x).draws = s.draws := rfl

/-! ### `State.setResultThenFlag` -/

@[simp] theorem State.setResultThenFlag_v (x : Nibble) (r f : Byte) : (s.setResultThenFlag x r f).v = (s.v.set x.toNat r x.isLt).set flagReg.toNat f flagReg.isLt := rfl
@[simp] theorem State.setResultThenFlag_index (x : Nibble) (r f : Byte) : (s.setResultThenFlag x r f).index = s.index := rfl
@[simp] theorem State.setResultThenFlag_pc (x : Nibble) (r f : Byte) : (s.setResultThenFlag x r f).pc = s.pc := rfl
@[simp] theorem State.setResultThenFlag_stack (x : Nibble) (r f : Byte) : (s.setResultThenFlag x r f).stack = s.stack := rfl
@[simp] theorem State.setResultThenFlag_sp (x : Nibble) (r f : Byte) : (s.setResultThenFlag x r f).sp = s.sp := rfl
@[simp] theorem State.setResultThenFlag_mem (x : Nibble) (r f : Byte) : (s.setResultThenFlag x r f).mem = s.mem := rfl
@[simp] theorem State.setResultThenFlag_fb (x : Nibble) (r f : Byte) : (s.setResultThenFlag x r f).fb = s.fb := rfl
@[simp] theorem State.setResultThenFlag_dt (x : Nibble) (r f : Byte) : (s.setResultThenFlag x r f).dt = s.dt := rfl
@[simp] theorem State.setResultThenFlag_st (x : Nibble) (r f : Byte) : (s.setResultThenFlag x r f).st = s.st := rfl
@[simp] theorem State.setResultThenFlag_keypad (x : Nibble) (r f : Byte) : (s.setResultThenFlag x r f).keypad = s.keypad := rfl
@[simp] theorem State.setResultThenFlag_pendingKey (x : Nibble) (r f : Byte) : (s.setResultThenFlag x r f).pendingKey = s.pendingKey := rfl
@[simp] theorem State.setResultThenFlag_audioActive (x : Nibble) (r f : Byte) : (s.setResultThenFlag x r f).audioActive = s.audioActive := rfl
@[simp] theorem State.setResultThenFlag_commands (x : Nibble) (r f : Byte) : (s.setResultThenFlag x r f).commands = s.commands := rfl
@[simp] theorem State.setResultThenFlag_rndIn (x : Nibble) (r f : Byte) : (s.setResultThenFlag x r f).rndIn = s.rndIn := rfl
@[simp] theorem State.setResultThenFlag_draws (x : Nibble) (r f : Byte) : (s.setResultThenFlag x r f).draws = s.draws := rfl

/-! ### `State.stepTimers` -/

@[simp] theorem State.stepTimers_v : (s.stepTimers).v = s.v := rfl
@[simp] theorem State.stepTimers_index : (s.stepTimers).index = s.index := rfl
@[simp] theorem State.stepTimers_pc : (s.stepTimers).pc = s.pc := rfl
@[simp] theorem State.stepTimers_stack : (s.stepTimers).stack = s.stack := rfl
@[simp] theorem State.stepTimers_sp : (s.stepTimers).sp = s.sp := rfl
@[simp] theorem State.stepTimers_mem : (s.stepTimers).mem = s.mem := rfl
@[simp] theorem State.stepTimers_fb : (s.stepTimers).fb = s.fb := rfl
@[simp] theorem State.stepTimers_dt : (s.stepTimers).dt = if s.dt = 0 then s.dt else s.dt - 1 := rfl
@[simp] theorem State.stepTimers_st : (s.stepTimers).st = if s.st = 0 then s.st else s.st - 1 := rfl
@[simp] theorem State.stepTimers_keypad : (s.stepTimers).keypad = s.keypad := rfl
@[simp] theorem State.stepTimers_pendingKey : (s.stepTimers).pendingKey = s.pendingKey := rfl
@[simp] theorem State.stepTimers_audioActive : (s.stepTimers).audioActive = decide (s.st ≠ 0) := rfl
@[simp] theorem State.stepTimers_commands : (s.stepTimers).commands = s.commands := rfl
@[simp] theorem State.stepTimers_rndIn : (s.stepTimers).rndIn = s.rndIn := rfl
@[simp] theorem State.stepTimers_draws : (s.stepTimers).draws = s.draws := rfl

/-! ### `State.setKey` -/

@[simp] theorem State.setKey_v (k : Nibble) (p : Bool) : (s.setKey k p).v = s.v := rfl
@[simp] theorem State.setKey_index (k : Nibble) (p : Bool) : (s.setKey k p).index = s.index := rfl
@[simp] theorem State.setKey_pc (k : Nibble) (p : Bool) : (s.setKey k p).pc = s.pc := rfl
@[simp] theorem State.setKey_stack (k : Nibble) (p : Bool) : (s.setKey k p).stack = s.stack := rfl
@[simp] theorem State.setKey_sp (k : Nibble) (p : Bool) : (s.setKey k p).sp = s.sp := rfl
@[simp] theorem State.setKey_mem (k : Nibble) (p : Bool) : (s.setKey k p).mem = s.mem := rfl
@[simp] theorem State.setKey_fb (k : Nibble) (p : Bool) : (s.setKey k p).fb = s.fb := rfl
@[simp] theorem State.setKey_dt (k : Nibble) (p : Bool) : (s.setKey k p).dt = s.dt := rfl
@[simp] theorem State.setKey_st (k : Nibble) (p : Bool) : (s.setKey k p).st = s.st := rfl
@[simp] theorem State.setKey_keypad (k : Nibble) (p : Bool) : (s.setKey k p).keypad = s.keypad.set k.toNat p k.isLt := rfl
@[simp] theorem State.setKey_pendingKey (k : Nibble) (p : Bool) : (s.setKey k p).pendingKey = if p then some k else s.pendingKey := rfl
@[simp] theorem State.setKey_audioActive (k : Nibble) (p : Bool) : (s.setKey k p).audioActive = s.audioActive := rfl
@[simp] theorem State.setKey_commands (k : Nibble) (p : Bool) : (s.setKey k p).commands = s.commands := rfl
@[simp] theorem State.setKey_rndIn (k : Nibble) (p : Bool) : (s.setKey k p).rndIn = s.rndIn := rfl
@[simp] theorem State.setKey_draws (k : Nibble) (p : Bool) : (s.setKey k p).draws = s.draws := rfl

/-! ### `State.skipIf` -/

@[simp] theorem State.skipIf_v (c : Bool) : (s.skipIf c).v = s.v := by cases c <;> rfl
@[simp] theorem State.skipIf_index (c : Bool) : (s.skipIf c).index = s.index := by cases c <;> rfl
@[simp] theorem State.skipIf_pc (c : Bool) : (s.skipIf c).pc = if c then s.pc + 2 else s.pc := by cases c <;> rfl
@[simp] theorem State.skipIf_stack (c : Bool) : (s.skipIf c).stack = s.stack := by cases c <;> rfl
@[simp] theorem State.skipIf_sp (c : Bool) : (s.skipIf c).sp = s.sp := by cases c <;> rfl
@[simp] theorem State.skipIf_mem (c : Bool) : (s.skipIf c).mem = s.mem := by cases c <;> rfl
@[simp] theorem State.skipIf_fb (c : Bool) : (s.skipIf c).fb = s.fb := by cases c <;> rfl
@[simp] theorem State.skipIf_dt (c : Bool) : (s.skipIf c).dt = s.dt := by cases c <;> rfl
@[simp] theorem State.skipIf_st (c : Bool) : (s.skipIf c).st = s.st := by cases c <;> rfl
@[simp] theorem State.skipIf_keypad (c : Bool) : (s.skipIf c).keypad = s.keypad := by cases c <;> rfl
@[simp] theorem State.skipIf_pendingKey (c : Bool) : (s.skipIf c).pendingKey = s.pendingKey := by cases c <;> rfl
@[simp] theorem State.skipIf_audioActive (c : Bool) : (s.skipIf c).audioActive = s.audioActive := by cases c <;> rfl
@[simp] theorem State.skipIf_commands (c : Bool) : (s.skipIf c).commands = s.commands := by cases c <;> rfl
@[simp] theorem State.skipIf_rndIn (c : Bool) : (s.skipIf c).rndIn = s.rndIn := by cases c <;> rfl
@[simp] theorem State.skipIf_draws (c : Bool) : (s.skipIf c).draws = s.draws := by cases c <;> rfl

end Sys2Proof.Machine
end

