-- ==== Sys2Proof/Laws/Ops.lean ====
section
/-!
SUPPORT. For each shared operation, once, everything it can answer; later proofs cite these instead of unfolding it.
-/

namespace Sys2Proof.Machine

/-! ### Registers -/

/-- A register write changes its register and no other. -/
@[simp] theorem State.reg_setReg (s : State) (x y : Nibble) (b : Byte) :
    (s.setReg x b).reg y = if y = x then b else s.reg y := by
  simp only [State.reg, State.setReg, Vector.getElem_set, BitVec.toNat_inj, eq_comm (a := y)]

/-- The result-then-flag write: the flag is what remains in `V[15]`. -/
@[simp] theorem State.reg_setResultThenFlag (s : State) (x y : Nibble) (r f : Byte) :
    (s.setResultThenFlag x r f).reg y = if y = 15 then f else if y = x then r else s.reg y := by
  simp [State.setResultThenFlag, flagReg]

/-- The block load writes `V[0]` to `V[x]` and no other register. -/
@[simp] theorem State.reg_loadFromIndex (s : State) (x y : Nibble) :
    (s.loadFromIndex x).reg y = if y.toNat ≤ x.toNat then s.byteAt (s.index.toNat + y.toNat) else s.reg y := by
  simp [State.reg, State.loadFromIndex]

/-- Two states with the same register file hold the same registers. -/
theorem State.reg_congr {s t : State} (h : t.v = s.v) (x : Nibble) : t.reg x = s.reg x := by
  simp [State.reg, h]

/-- Two states with the same memory hold the same bytes. -/
theorem State.byteAt_congr {s t : State} (h : t.mem = s.mem) (a : Nat) : t.byteAt a = s.byteAt a := by
  simp [State.byteAt, h]

/-- Two states with the same framebuffer hold the same cells. -/
theorem State.cell_congr {s t : State} (h : t.fb = s.fb) (k : Nat) : t.cell k = s.cell k := by
  simp [State.cell, h]

/-! ### The stack -/

/-- A push succeeds with `sp < 16` and then writes `stack[sp]` and `sp`; at `sp = 16` it fails. -/
theorem State.push_cases (s : State) (w : Word) :
    (∃ h : s.sp.val < 16, s.push w =
      some { s with stack := s.stack.set s.sp.val w h, sp := ⟨s.sp.val + 1, Nat.succ_lt_succ h⟩ }) ∨
    (s.sp.val = 16 ∧ s.push w = none) := by
  unfold State.push
  split
  · exact .inl ⟨‹_›, rfl⟩
  · exact .inr ⟨by have := s.sp.isLt; omega, rfl⟩

/-- A pop succeeds with `sp > 0`, answers the top cell and lowers `sp`; at `sp = 0` it fails. -/
theorem State.pop_cases (s : State) :
    (0 < s.sp.val ∧ ∃ h' : s.sp.val - 1 < 16, s.pop =
      some (s.stack[s.sp.val - 1], { s with sp := ⟨s.sp.val - 1, Nat.lt_succ_of_lt h'⟩ })) ∨
    (s.sp.val = 0 ∧ s.pop = none) := by
  unfold State.pop
  split
  · exact .inr ⟨‹_›, rfl⟩
  · exact .inl ⟨by omega, by have := s.sp.isLt; omega, rfl⟩

/-! ### The range check and the key check -/

/-- The range check lets a transfer through exactly when it is empty or ends at or below 0xFFF. -/
theorem State.guardRange_next {s : State} {n : Nat} {r : Result} {t : State} :
    s.guardRange n r = .next t ↔ (n = 0 ∨ s.index.toNat + n ≤ 0x1000) ∧ r = .next t := by
  unfold State.guardRange raise
  split
  · simp; omega
  · constructor
    · intro h; exact ⟨by omega, h⟩
    · exact fun h => h.2

/-- The range check passes a transfer in range on unchanged. -/
theorem State.guardRange_inRange {s : State} {n : Nat} (r : Result) (h : n = 0 ∨ s.index.toNat + n ≤ 0x1000) :
    s.guardRange n r = r := by
  unfold State.guardRange
  rw [if_neg (by omega)]

/-- The range check stops a transfer that overruns with MemoryBounds. -/
theorem State.guardRange_overrun {s : State} {n : Nat} (r : Result) (h : 0 < n ∧ 0x1000 < s.index.toNat + n) :
    s.guardRange n r = .fault (.memoryBounds s.firstOutOfRange) := by
  unfold State.guardRange raise
  rw [if_pos (by omega)]

/-- The key check: the key's state for a value up to 15, KeyIndex above. -/
theorem State.withKey_cases (s : State) (x : Nibble) (use : Bool → Result) :
    (∃ h : (s.reg x).toNat < 16, s.withKey x use = use s.keypad[(s.reg x).toNat]) ∨
    (15 < (s.reg x).toNat ∧ s.withKey x use = .fault (.keyIndex (s.reg x))) := by
  unfold State.withKey raise
  split
  · exact .inl ⟨‹_›, rfl⟩
  · exact .inr ⟨by omega, rfl⟩

/-! ### The fetch -/

/-- A fetch at `pc ≤ 0xFFE` reads two bytes, the high byte first. -/
theorem State.fetch_inRange {s : State} (h : s.pc.toNat ≤ 0xFFE) :
    s.fetch = some (opcodeOfBytes (s.byteAt s.pc.toNat) (s.byteAt (s.pc.toNat + 1))) := by
  unfold State.fetch
  rw [if_neg (by omega)]

/-- A fetch above 0xFFE reads nothing. -/
theorem State.fetch_outOfRange {s : State} (h : 0xFFE < s.pc.toNat) : s.fetch = none := by
  unfold State.fetch
  rw [if_pos h]

/-! ### The pc -/

/-- The roll-back undoes the advance. -/
@[simp] theorem State.advance_rollBack (s : State) : s.advance.rollBack = s := by
  simp [State.advance, State.rollBack]

end Sys2Proof.Machine
end

