-- ==== Sys2Proof/Laws/Cycle.lean ====
section
/-!
SUPPORT. What a cycle does for each answer of the decoder, and that the host's inputs do not matter to fetch and decode.
-/

namespace Sys2Proof.Machine

/-- The decoded instruction does not depend on the host's queue or input. -/
@[simp] theorem State.decoded_inputs (s : State) (c : List Command) (r : Option Byte) :
    State.decoded { s with commands := c, rndIn := r } = s.decoded := rfl

/-- A cycle on a defined instruction is its meaning. -/
theorem cycle_of_defined {s : State} {i : Instr} (h : s.decoded = some (.defined i)) : cycle s = exec i s := by
  simp only [cycle, h, apply]

/-- A cycle on an Unknown is the advance. -/
theorem cycle_of_unknown {s : State} {w : Word} (h : s.decoded = some (.unknown w)) : cycle s = .next s.advance := by
  simp only [cycle, h, apply, execUnknown]

/-- A cycle with nothing to fetch is FetchBounds. -/
theorem cycle_of_none {s : State} (h : s.decoded = none) : cycle s = .fault (.fetchBounds s.pc) := by
  simp only [cycle, h, raise]

/-- Restoring the input keeps a fault, and only a fault becomes one. -/
@[simp] theorem restoreRnd_fault {r : Option Byte} {a : Result} {f : Fault} : restoreRnd r a = .fault f ↔ a = .fault f := by
  cases a <;> simp [restoreRnd]

/-- Restoring the input of a next state. -/
@[simp] theorem restoreRnd_next (r : Option Byte) (t : State) : restoreRnd r (.next t) = .next { t with rndIn := r } := rfl

/-- With an empty queue a step is a cycle. -/
theorem step_of_empty {s : State} (h : s.commands = []) : step s = cycle s := by
  simp only [step, runStep, h]

/-- With a queued `cycle` command a step is the cycle of that command, the input restored. -/
theorem step_of_cycle {s : State} {r : Byte} {rest : List Command} (h : s.commands = .cycle r :: rest) :
    step s = restoreRnd s.rndIn (cycle { s with commands := rest, rndIn := some r }) := by
  simp only [step, runStep, h]

end Sys2Proof.Machine
end

