-- ==== Sys2Proof/Laws/Decode.lean ====
section
/-!
SUPPORT. The fields of the words the encoder builds, and a word put together again from its fields (30_encoding.md R71,
R72).
-/

namespace Sys2Proof

/-- The bits of a word: the low 12 are its `nnn`, the rest its family. -/
theorem getLsbD_word (f : Nibble) (a : Addr12) (i : Nat) :
    (f ++ a : Word).getLsbD i = if i < 12 then a.getLsbD i else f.getLsbD (i - 12) := BitVec.getLsbD_append

/-- The bits of an `nnn`: the low 8 are its `kk`, the rest its `x`. -/
theorem getLsbD_addr12 (x : Nibble) (k : Byte) (i : Nat) :
    (x ++ k : Addr12).getLsbD i = if i < 8 then k.getLsbD i else x.getLsbD (i - 8) := BitVec.getLsbD_append

/-- The bits of a `kk`: the low 4 are its `n`, the rest its `y`. -/
theorem getLsbD_byte (y n : Nibble) (i : Nat) :
    (y ++ n : Byte).getLsbD i = if i < 4 then n.getLsbD i else y.getLsbD (i - 4) := BitVec.getLsbD_append

/-- The high nibble of `x ++ kk`. -/
theorem addr12_high (x : Nibble) (k : Byte) : (x ++ k : Addr12).extractLsb' 8 4 = x :=
  BitVec.extractLsb'_append_eq_left

/-- The low byte of `x ++ kk`. -/
theorem addr12_low (x : Nibble) (k : Byte) : (x ++ k : Addr12).extractLsb' 0 8 = k :=
  BitVec.extractLsb'_append_eq_right

/-- The high nibble of `y ++ n`. -/
theorem byte_high (y n : Nibble) : (y ++ n : Byte).extractLsb' 4 4 = y := BitVec.extractLsb'_append_eq_left

/-- The low nibble of `y ++ n`. -/
theorem byte_low (y n : Nibble) : (y ++ n : Byte).extractLsb' 0 4 = n := BitVec.extractLsb'_append_eq_right

/-- `fieldFamily` of a word built by `encodeNNN`. -/
theorem fieldFamily_encodeNNN (f : Nibble) (a : Addr12) : fieldFamily (encodeNNN f a) = f :=
  BitVec.extractLsb'_append_eq_left

/-- `fieldNNN` of a word built by `encodeNNN`. -/
theorem fieldNNN_encodeNNN (f : Nibble) (a : Addr12) : fieldNNN (encodeNNN f a) = a :=
  BitVec.extractLsb'_append_eq_right

/-- `fieldFamily` of a word built by `encodeXKK`. -/
theorem fieldFamily_encodeXKK (f x : Nibble) (k : Byte) : fieldFamily (encodeXKK f x k) = f :=
  BitVec.extractLsb'_append_eq_left

/-- `fieldNNN` of a word built by `encodeXKK`. -/
theorem fieldNNN_encodeXKK (f x : Nibble) (k : Byte) : fieldNNN (encodeXKK f x k) = x ++ k :=
  BitVec.extractLsb'_append_eq_right

/-- `fieldFamily` of a word built by `encodeXYN`. -/
theorem fieldFamily_encodeXYN (f x y n : Nibble) : fieldFamily (encodeXYN f x y n) = f :=
  BitVec.extractLsb'_append_eq_left

/-- `x` is the high nibble of `nnn`. -/
theorem fieldX_eq (w : Word) : fieldX w = (fieldNNN w).extractLsb' 8 4 := by
  apply BitVec.eq_of_getLsbD_eq; intro i hi
  simp [fieldX, fieldNNN, hi]

/-- `kk` is the low byte of `nnn`. -/
theorem fieldKK_eq (w : Word) : fieldKK w = (fieldNNN w).extractLsb' 0 8 := by
  apply BitVec.eq_of_getLsbD_eq; intro i hi
  simp [fieldKK, fieldNNN, hi]

/-- `y` is the high nibble of `kk`. -/
theorem fieldY_eq (w : Word) : fieldY w = (fieldKK w).extractLsb' 4 4 := by
  apply BitVec.eq_of_getLsbD_eq; intro i hi
  simp [fieldY, fieldKK, hi]

/-- `n` is the low nibble of `kk`. -/
theorem fieldN_eq (w : Word) : fieldN w = (fieldKK w).extractLsb' 0 4 := by
  apply BitVec.eq_of_getLsbD_eq; intro i hi
  simp [fieldN, fieldKK, hi]

/-- `fieldX` of a word built by `encodeXKK`. -/
theorem fieldX_encodeXKK (f x : Nibble) (k : Byte) : fieldX (encodeXKK f x k) = x := by
  rw [fieldX_eq, fieldNNN_encodeXKK, addr12_high]

/-- `fieldKK` of a word built by `encodeXKK`. -/
theorem fieldKK_encodeXKK (f x : Nibble) (k : Byte) : fieldKK (encodeXKK f x k) = k := by
  rw [fieldKK_eq, fieldNNN_encodeXKK, addr12_low]

/-- `fieldX` of a word built by `encodeXYN`. -/
theorem fieldX_encodeXYN (f x y n : Nibble) : fieldX (encodeXYN f x y n) = x :=
  fieldX_encodeXKK f x (y ++ n)

/-- `fieldKK` of a word built by `encodeXYN`. -/
theorem fieldKK_encodeXYN (f x y n : Nibble) : fieldKK (encodeXYN f x y n) = y ++ n :=
  fieldKK_encodeXKK f x (y ++ n)

/-- `fieldY` of a word built by `encodeXYN`. -/
theorem fieldY_encodeXYN (f x y n : Nibble) : fieldY (encodeXYN f x y n) = y := by
  rw [fieldY_eq, fieldKK_encodeXYN, byte_high]

/-- `fieldN` of a word built by `encodeXYN`. -/
theorem fieldN_encodeXYN (f x y n : Nibble) : fieldN (encodeXYN f x y n) = n := by
  rw [fieldN_eq, fieldKK_encodeXYN, byte_low]

/-- A word put together again from its family and `nnn`. -/
theorem encodeNNN_fields (w : Word) : encodeNNN (fieldFamily w) (fieldNNN w) = w := by
  apply BitVec.eq_of_getLsbD_eq; intro i hi
  rw [encodeNNN, getLsbD_word]
  by_cases h : i < 12
  · simp [fieldNNN, h]
  · simp [fieldFamily, h, show i - 12 < 4 by omega, show 12 + (i - 12) = i by omega]

/-- `nnn = (x, kk)` (R71). -/
theorem fieldNNN_eq (w : Word) : fieldX w ++ fieldKK w = fieldNNN w := by
  apply BitVec.eq_of_getLsbD_eq; intro i hi
  rw [getLsbD_addr12]
  by_cases h : i < 8
  · simp [fieldNNN, fieldKK, h, show i < 12 by omega]
  · simp [fieldNNN, fieldX, h, show i < 12 by omega, show i - 8 < 4 by omega, show 8 + (i - 8) = i by omega]

/-- `kk = (y, n)` (R71). -/
theorem fieldKK_split (w : Word) : fieldY w ++ fieldN w = fieldKK w := by
  apply BitVec.eq_of_getLsbD_eq; intro i hi
  rw [getLsbD_byte]
  by_cases h : i < 4
  · simp [fieldKK, fieldN, h, show i < 8 by omega]
  · simp [fieldKK, fieldY, h, show i < 8 by omega, show i - 4 < 4 by omega, show 4 + (i - 4) = i by omega]

/-- A word put together again from its family, `x` and `kk`. -/
theorem encodeXKK_fields (w : Word) : encodeXKK (fieldFamily w) (fieldX w) (fieldKK w) = w := by
  unfold encodeXKK
  rw [fieldNNN_eq]
  exact encodeNNN_fields w

/-- A word put together again from its four nibbles. -/
theorem encodeXYN_fields (w : Word) : encodeXYN (fieldFamily w) (fieldX w) (fieldY w) (fieldN w) = w := by
  unfold encodeXYN
  rw [fieldKK_split]
  exact encodeXKK_fields w

end Sys2Proof
end

