-- ==== Sys2Proof/Laws/Display.lean ====
section
/-!
SUPPORT. What the sprite datapath does to a framebuffer: one cell, one bit, one row, a whole sprite.
-/

namespace Sys2Proof.Machine

/-- Toggling a cell of the grid changes it and no other. -/
theorem cellOf_toggleCell (fb : Framebuffer) (k j : Nat) (hk : k < 2048) :
    cellOf (toggleCell fb k) j = (cellOf fb j ^^ decide (j = k)) := by
  have hk' : k / 64 < 32 := by omega
  simp only [cellOf, toggleCell, hk', dif_pos]
  by_cases hj : j / 64 = k / 64
  · have : j / 64 < 32 := by omega
    simp [hj, hk', BitVec.getLsbD_twoPow]
    have h : k % 64 = j % 64 ↔ j = k := by omega
    simp [h, Nat.mod_lt]
  · have : j ≠ k := by rintro rfl; exact hj rfl
    simp [Ne.symm hj, this]

/-- One sprite bit: it toggles its own cell and no other, and collides iff that cell was 1. -/
theorem Canvas.drawBit_spec (c : Canvas) (b : Byte) (x0 cy col : Nat) (hcy : cy ≤ 31) :
    (∀ j, cellOf (c.drawBit b x0 cy col).fb j =
      (cellOf c.fb j ^^ decide (x0 + col ≤ 63 ∧ b.getLsbD (7 - col) = true ∧ j = cy * 64 + (x0 + col)))) ∧
    (c.drawBit b x0 cy col).collision =
      (c.collision || decide (x0 + col ≤ 63 ∧ b.getLsbD (7 - col) = true ∧ cellOf c.fb (cy * 64 + (x0 + col)) = true)) := by
  unfold Canvas.drawBit
  by_cases h : x0 + col ≤ 63 ∧ b.getLsbD (7 - col) = true
  · rw [if_pos h]
    refine ⟨fun j => ?_, ?_⟩
    · simp [Canvas.hit, cellOf_toggleCell _ _ _ (show cy * 64 + (x0 + col) < 2048 by omega), h.1, h.2]
    · simp [Canvas.hit, h.1, h.2]
  · rw [if_neg h]
    refine ⟨fun j => ?_, ?_⟩
    · rw [decide_eq_false (by tauto), Bool.xor_false]
    · rw [decide_eq_false (by tauto), Bool.or_false]

/-- One sprite row inside the grid: cell `(cx, cy)` is toggled iff its sprite bit is 1; a collision iff one of those
cells was 1. -/
theorem Canvas.drawRow_spec (c : Canvas) (b : Byte) (x0 cy : Nat) (hcy : cy ≤ 31) :
    (∀ cx cy', cx < 64 → cellOf (c.drawRow b x0 cy).fb (cy' * 64 + cx) =
      (cellOf c.fb (cy' * 64 + cx) ^^
        decide (cy' = cy ∧ x0 ≤ cx ∧ cx < x0 + 8 ∧ b.getLsbD (7 - (cx - x0)) = true))) ∧
    ((c.drawRow b x0 cy).collision = true ↔
      (c.collision = true ∨ ∃ cx, cx < 64 ∧ x0 ≤ cx ∧ cx < x0 + 8 ∧ b.getLsbD (7 - (cx - x0)) = true ∧
        cellOf c.fb (cy * 64 + cx) = true)) := by
  have key : ∀ m, m ≤ 8 → 
      (∀ cx cy', cx < 64 → cellOf ((List.range m).foldl (fun c col => c.drawBit b x0 cy col) c).fb (cy' * 64 + cx) =
        (cellOf c.fb (cy' * 64 + cx) ^^
          decide (cy' = cy ∧ x0 ≤ cx ∧ cx < x0 + m ∧ b.getLsbD (7 - (cx - x0)) = true))) ∧
      (((List.range m).foldl (fun c col => c.drawBit b x0 cy col) c).collision = true ↔
        (c.collision = true ∨ ∃ cx, cx < 64 ∧ x0 ≤ cx ∧ cx < x0 + m ∧ b.getLsbD (7 - (cx - x0)) = true ∧
          cellOf c.fb (cy * 64 + cx) = true)) := by
    intro m hm
    induction m with
    | zero =>
      refine ⟨fun cx cy' _ => ?_, ?_⟩
      · rw [decide_eq_false (by omega), Bool.xor_false]; rfl
      · constructor
        · exact .inl
        · rintro (h | ⟨cx, -, h1, h2, -⟩)
          · exact h
          · omega
    | succ m ih =>
      obtain ⟨ihc, ihf⟩ := ih (by omega)
      rw [List.range_succ, List.foldl_append, List.foldl_cons, List.foldl_nil]
      obtain ⟨hc, hf⟩ := Canvas.drawBit_spec ((List.range m).foldl (fun c col => c.drawBit b x0 cy col) c) b x0 cy m hcy
      refine ⟨fun cx cy' hcx => ?_, ?_⟩
      · rw [hc, ihc cx cy' hcx]
        by_cases hh : cy' = cy ∧ cx = x0 + m
        · obtain ⟨rfl, rfl⟩ := hh
          rw [decide_eq_false (by omega : ¬ (cy' = cy' ∧ x0 ≤ x0 + m ∧ x0 + m < x0 + m ∧ _)), Bool.xor_false]
          congr 1
          rw [decide_eq_decide]
          have : x0 + m - x0 = m := by omega
          rw [this]
          constructor
          · rintro ⟨-, h, -⟩; exact ⟨rfl, by omega, by omega, h⟩
          · rintro ⟨-, -, -, h⟩; exact ⟨by omega, h, rfl⟩
        · rw [decide_eq_false (p := x0 + m ≤ 63 ∧ _) (by rintro ⟨h1, -, h2⟩; apply hh; omega), Bool.xor_false]
          congr 1
          rw [decide_eq_decide]
          constructor
          · rintro ⟨rfl, h1, h2, h3⟩; exact ⟨rfl, h1, by omega, h3⟩
          · rintro ⟨rfl, h1, h2, h3⟩; exact ⟨rfl, h1, by omega, h3⟩
      · rw [hf, Bool.or_eq_true, ihf, decide_eq_true_iff]
        constructor
        · rintro ((h | ⟨cx, h0, h1, h2, h3, h4⟩) | ⟨h1, h2, h3⟩)
          · exact .inl h
          · exact .inr ⟨cx, h0, h1, by omega, h3, h4⟩
          · refine .inr ⟨x0 + m, by omega, by omega, by omega, by rwa [show x0 + m - x0 = m by omega], ?_⟩
            rw [ihc _ _ (by omega), decide_eq_false (by omega), Bool.xor_false] at h3
            exact h3
        · rintro (h | ⟨cx, h0, h1, h2, h3, h4⟩)
          · exact .inl (.inl h)
          · by_cases hx : cx = x0 + m
            · subst hx
              refine .inr ⟨by omega, by rwa [show x0 + m - x0 = m by omega] at h3, ?_⟩
              rw [ihc _ _ (by omega), decide_eq_false (by omega), Bool.xor_false]
              exact h4
            · exact .inl (.inr ⟨cx, h0, h1, by omega, h3, h4⟩)
  unfold Canvas.drawRow
  rw [if_pos hcy]
  exact key 8 le_rfl

/-- Is the pixel `(cx, cy)` a 1 bit of the rows `bs` drawn with their top left at `(x0, y0)`? -/
def rowsPixel (bs : List Byte) (x0 y0 cx cy : Nat) : Prop :=
  (x0 ≤ cx ∧ cx < x0 + 8) ∧ (y0 ≤ cy ∧ cy < y0 + bs.length) ∧ (bs.getD (cy - y0) 0).getLsbD (7 - (cx - x0)) = true

/-- A whole sprite: each cell of the grid is toggled iff it is a 1 pixel of the sprite; a collision iff one of those cells
was 1. -/
theorem Canvas.drawRows_spec (c : Canvas) (bs : List Byte) (x0 y0 : Nat) :
    (∀ cx cy, cx < 64 → cy < 32 → (cellOf (c.drawRows bs x0 y0).fb (cy * 64 + cx) = true ↔
      (cellOf c.fb (cy * 64 + cx) = true ↔ ¬ rowsPixel bs x0 y0 cx cy))) ∧
    ((c.drawRows bs x0 y0).collision = true ↔
      c.collision = true ∨ ∃ cx cy, cx < 64 ∧ cy < 32 ∧ rowsPixel bs x0 y0 cx cy ∧ cellOf c.fb (cy * 64 + cx) = true) := by
  induction bs generalizing c y0 with
  | nil =>
    have : ∀ cx cy, ¬ rowsPixel [] x0 y0 cx cy := by rintro cx cy ⟨-, h, -⟩; simp at h; omega
    simp [Canvas.drawRows, this]
  | cons b bs ih =>
    rw [Canvas.drawRows]
    obtain ⟨ihc, ihf⟩ := ih (c.drawRow b x0 y0) (y0 + 1)
    -- the rows below the first
    have below : ∀ cx cy, cy ≠ y0 → (rowsPixel (b :: bs) x0 y0 cx cy ↔ rowsPixel bs x0 (y0 + 1) cx cy) := by
      intro cx cy hne
      unfold rowsPixel
      by_cases h : y0 + 1 ≤ cy
      · rw [show cy - y0 = (cy - (y0 + 1)) + 1 by omega, List.getD_cons_succ, List.length_cons]
        constructor
        · rintro ⟨h1, h2, h3⟩; exact ⟨h1, by omega, h3⟩
        · rintro ⟨h1, h2, h3⟩; exact ⟨h1, by omega, h3⟩
      · constructor
        · rintro ⟨h1, h2, h3⟩; omega
        · rintro ⟨h1, h2, h3⟩; omega
    have first : ∀ cx, (rowsPixel (b :: bs) x0 y0 cx y0 ↔ x0 ≤ cx ∧ cx < x0 + 8 ∧ b.getLsbD (7 - (cx - x0)) = true) := by
      intro cx
      simp [rowsPixel, and_assoc]
    have none : ∀ cx, ¬ rowsPixel bs x0 (y0 + 1) cx y0 := by rintro cx ⟨-, h, -⟩; omega
    by_cases hy : y0 ≤ 31
    · obtain ⟨rc, rf⟩ := Canvas.drawRow_spec c b x0 y0 hy
      refine ⟨fun cx cy hcx hcy => ?_, ?_⟩
      · rw [ihc cx cy hcx hcy, rc cx cy hcx]
        by_cases hne : cy = y0
        · subst hne
          rw [first]
          have := none cx
          by_cases hb : x0 ≤ cx ∧ cx < x0 + 8 ∧ b.getLsbD (7 - (cx - x0)) = true
          · simp [this, hb]
          · rw [decide_eq_false (by tauto)]; simp [this, hb]
        · rw [below cx cy hne, decide_eq_false (by tauto), Bool.xor_false]
      · rw [ihf, rf]
        constructor
        · rintro ((h | ⟨cx, h0, h1, h2, h3, h4⟩) | ⟨cx, cy, h0, h1, h2, h3⟩)
          · exact .inl h
          · exact .inr ⟨cx, y0, h0, by omega, (first cx).mpr ⟨h1, h2, h3⟩, h4⟩
          · have hne : cy ≠ y0 := by rintro rfl; exact none cx h2
            rw [rc cx cy h0, decide_eq_false (by tauto), Bool.xor_false] at h3
            exact .inr ⟨cx, cy, h0, h1, (below cx cy hne).mpr h2, h3⟩
        · rintro (h | ⟨cx, cy, h0, h1, h2, h3⟩)
          · exact .inl (.inl h)
          · by_cases hne : cy = y0
            · subst hne
              obtain ⟨g1, g2, g3⟩ := (first cx).mp h2
              exact .inl (.inr ⟨cx, h0, g1, g2, g3, h3⟩)
            · refine .inr ⟨cx, cy, h0, h1, (below cx cy hne).mp h2, ?_⟩
              rw [rc cx cy h0, decide_eq_false (by tauto), Bool.xor_false]
              exact h3
    · have hrow : c.drawRow b x0 y0 = c := by unfold Canvas.drawRow; rw [if_neg hy]
      rw [hrow] at ihc ihf ⊢
      refine ⟨fun cx cy hcx hcy => ?_, ?_⟩
      · rw [ihc cx cy hcx hcy, below cx cy (by omega)]
      · rw [ihf]
        refine or_congr_right (exists_congr fun cx => exists_congr fun cy => ?_)
        constructor
        · rintro ⟨h0, h1, h2, h3⟩; exact ⟨h0, h1, (below cx cy (by omega)).mpr h2, h3⟩
        · rintro ⟨h0, h1, h2, h3⟩; exact ⟨h0, h1, (below cx cy (by omega)).mp h2, h3⟩
end Sys2Proof.Machine
end

