-- ==== Sys2Proof/Laws/Memory.lean ====
section
/-!
SUPPORT. The laws of memory: a read after a write, the canonical form, and that canonical memories which read alike are
equal.
-/

namespace Sys2Proof.Machine

/-- An address taken off the list is not listed; every other is listed as before. -/
theorem listedByte_dropCell (m : Memory) (a c : Nat) :
    listedByte (dropCell m a) c = if c = a then none else listedByte m c := by
  induction m with
  | nil => simp [dropCell, listedByte]
  | cons e m ih =>
    obtain ⟨k, b⟩ := e
    rw [dropCell] at ih ⊢
    by_cases hk : k = a
    · subst hk
      by_cases hc : c = k
      · simpa [List.filter_cons, hc, listedByte] using ih
      · simpa [List.filter_cons, hc, listedByte, Ne.symm hc] using ih
    · by_cases hc : k = c
      · subst hc; simp [listedByte, hk]
      · simpa [List.filter_cons, listedByte, hk, hc] using ih

/-- An address placed on the list is listed; every other is listed as before. -/
theorem listedByte_placeCell (m : Memory) (a c : Nat) (b : Byte) (h : listedByte m a = none) :
    listedByte (placeCell m a b) c = if c = a then some b else listedByte m c := by
  induction m with
  | nil => simp [placeCell, listedByte, eq_comm (a := a)]
  | cons e m ih =>
    obtain ⟨k, d⟩ := e
    have hk : k ≠ a := by rintro rfl; simp [listedByte] at h
    have hm : listedByte m a = none := by simpa [listedByte, hk] using h
    by_cases hlt : k < a
    · by_cases hc : k = c
      · subst hc; simp [placeCell, listedByte, hlt, hk]
      · simpa [placeCell, listedByte, hlt, hc] using ih hm
    · by_cases hc : c = a
      · subst hc; simp [placeCell, listedByte, hlt]
      · simp [placeCell, listedByte, hlt, hc, Ne.symm hc]

/-- A read after a write: the byte written at its own address, every other address as before. -/
theorem readByte_writeByte (m : Memory) (a c : Nat) (b : Byte) :
    readByte (writeByte m a b) c = if c = a ∧ a < Config.memSize then b else readByte m c := by
  unfold writeByte
  by_cases ha : Config.memSize ≤ a
  · simp [ha, Nat.not_lt.mpr ha]
  · by_cases hb : b = resetByte a
    · by_cases hc : c = a
      · simp [readByte, listedByte_dropCell, ha, hb, hc, Nat.not_le.mp ha]
      · simp [readByte, listedByte_dropCell, ha, hb, hc]
    · have hn : listedByte (dropCell m a) a = none := by simp [listedByte_dropCell]
      by_cases hc : c = a
      · simp [readByte, listedByte_placeCell _ _ _ _ hn, ha, hb, hc, Nat.not_le.mp ha]
      · simp [readByte, listedByte_placeCell _ _ _ _ hn, listedByte_dropCell, ha, hb, hc]

/-- Taking a cell off keeps the canonical form. -/
theorem dropCell_wf {m : Memory} (h : Memory.wf m) (a : Nat) : Memory.wf (dropCell m a) :=
  ⟨h.1.filter _, fun c hc => h.2 c (List.mem_of_mem_filter hc)⟩

/-- The cells after a placement. -/
theorem mem_placeCell (m : Memory) (a : Nat) (b : Byte) (c : Host.Cell) :
    c ∈ placeCell m a b ↔ c = (a, b) ∨ c ∈ m := by
  induction m with
  | nil => simp [placeCell]
  | cons e m ih =>
    by_cases he : e.1 < a
    · simp only [placeCell, he, if_true, List.mem_cons, ih]; tauto
    · simp [placeCell, he]

/-- Placing a cell that differs from its reset contents keeps the canonical form. -/
theorem placeCell_wf {m : Memory} (h : Memory.wf m) {a : Nat} {b : Byte} (ha : a < Config.memSize)
    (hb : b ≠ resetByte a) (hn : ∀ c ∈ m, c.1 ≠ a) : Memory.wf (placeCell m a b) := by
  refine ⟨?_, fun c hc => ?_⟩
  · induction m with
    | nil => simp [placeCell]
    | cons e m ih =>
      have hp := List.pairwise_cons.mp h.1
      have hm : Memory.wf m := ⟨hp.2, fun c hc => h.2 c (List.mem_cons_of_mem _ hc)⟩
      by_cases he : e.1 < a
      · simp only [placeCell, he, if_true]
        refine List.pairwise_cons.mpr ⟨fun c hc => ?_, ih hm (fun c hc => hn c (List.mem_cons_of_mem _ hc))⟩
        rcases (mem_placeCell m a b c).mp hc with rfl | hc
        · exact he
        · exact hp.1 c hc
      · simp only [placeCell, he, if_false]
        have hea : a < e.1 := by have := hn e List.mem_cons_self; omega
        refine List.pairwise_cons.mpr ⟨fun c hc => ?_, h.1⟩
        rcases List.mem_cons.mp hc with rfl | hc
        · exact hea
        · exact hea.trans (hp.1 c hc)
  · rcases (mem_placeCell m a b c).mp hc with rfl | hc
    · exact ⟨ha, hb⟩
    · exact h.2 c hc

/-- A write keeps memory in its canonical form. -/
theorem writeByte_wf {m : Memory} (h : Memory.wf m) (a : Nat) (b : Byte) : Memory.wf (writeByte m a b) := by
  unfold writeByte
  split
  · exact h
  · split
    · exact dropCell_wf h a
    · refine placeCell_wf (dropCell_wf h a) (by omega) ‹_› (fun c hc => ?_)
      simpa [dropCell] using (List.mem_filter.mp hc).2

/-- A write of several bytes keeps memory in its canonical form. -/
theorem writeBytes_wf {m : Memory} (h : Memory.wf m) (a : Nat) (bs : List Byte) : Memory.wf (writeBytes m a bs) := by
  induction bs generalizing m a with
  | nil => exact h
  | cons b bs ih => exact ih (writeByte_wf h a b) (a + 1)

/-- A read after a write of several bytes: the byte written there, every other address as before. -/
theorem readByte_writeBytes (m : Memory) (a : Nat) (bs : List Byte) (c : Nat) :
    readByte (writeBytes m a bs) c =
      if a ≤ c ∧ c < a + bs.length ∧ c < Config.memSize then bs.getD (c - a) 0 else readByte m c := by
  induction bs generalizing m a with
  | nil => rw [if_neg (by simp; omega)]; rfl
  | cons b bs ih =>
    rw [writeBytes, ih, readByte_writeByte]
    by_cases hc : c = a
    · subst hc
      by_cases hs : c < Config.memSize <;> simp [hs]
    · by_cases h1 : a ≤ c ∧ c < a + (b :: bs).length ∧ c < Config.memSize
      · have h2 : a + 1 ≤ c ∧ c < a + 1 + bs.length ∧ c < Config.memSize := by
          simp only [List.length_cons] at h1; omega
        obtain ⟨d, rfl⟩ : ∃ d, c = a + 1 + d := ⟨c - (a + 1), by omega⟩
        rw [if_pos h1, if_pos h2, show a + 1 + d - (a + 1) = d by omega, show a + 1 + d - a = d + 1 by omega]
        rfl
      · have h2 : ¬ (a + 1 ≤ c ∧ c < a + 1 + bs.length ∧ c < Config.memSize) := by
          simp only [List.length_cons] at h1; omega
        rw [if_neg h1, if_neg h2, if_neg (fun h => hc h.1)]

/-- Canonical memories that read alike at every address are equal. -/
theorem memory_ext {m n : Memory} (hm : Memory.wf m) (hn : Memory.wf n) (h : ∀ a, readByte m a = readByte n a) :
    m = n := by
  have key : ∀ {m n : Memory}, Memory.wf m → Memory.wf n → (∀ a, readByte m a = readByte n a) →
      ∀ c ∈ m, c ∈ n := by
    intro m n hm hn h c hc
    have listed : ∀ {m : Memory} (_ : m.Pairwise (fun c d => c.1 < d.1)) {c : Host.Cell}, c ∈ m →
        listedByte m c.1 = some c.2 := by
      intro m hp c hc
      induction m with
      | nil => simp at hc
      | cons e m ih =>
        have hq := List.pairwise_cons.mp hp
        rcases List.mem_cons.mp hc with rfl | hm
        · simp [listedByte]
        · have := hq.1 c hm
          obtain ⟨k, b⟩ := e
          simpa [listedByte, show k ≠ c.1 by simp at this; omega] using ih hq.2 hm
    have unlisted : ∀ {m : Memory} {a : Nat} {b : Byte}, listedByte m a = some b → (a, b) ∈ m := by
      intro m a b hab
      induction m with
      | nil => simp [listedByte] at hab
      | cons e m ih =>
        obtain ⟨k, d⟩ := e
        by_cases hk : k = a
        · subst hk; simp [listedByte] at hab; simp [hab]
        · exact List.mem_cons_of_mem _ (ih (by simpa [listedByte, hk] using hab))
    have h1 : readByte m c.1 = c.2 := by simp [readByte, listed hm.1 hc]
    have h2 : readByte n c.1 = c.2 := by rw [← h, h1]
    cases hl : listedByte n c.1 with
    | none =>
      rw [readByte, hl] at h2
      exact absurd h2.symm (hm.2 c hc).2
    | some b =>
      rw [readByte, hl] at h2
      simp only [Option.getD_some] at h2
      subst h2
      exact unlisted hl
  have nodup : ∀ {m : Memory}, m.Pairwise (fun c d => c.1 < d.1) → m.Nodup := fun hp =>
    hp.imp (fun {c d} hcd hd => by subst hd; exact lt_irrefl _ hcd)
  have hp : m.Perm n := (List.perm_ext_iff_of_nodup (nodup hm.1) (nodup hn.1)).mpr
    (fun c => ⟨key hm hn h c, key hn hm (fun a => (h a).symm) c⟩)
  exact hp.eq_of_pairwise (fun c d _ _ h1 h2 => absurd (lt_trans h1 h2) (lt_irrefl _)) hm.1 hn.1

/-- Reset memory is canonical: nothing is listed. -/
theorem reset_mem_wf : Memory.wf State.reset.mem := ⟨List.Pairwise.nil, by simp [State.reset]⟩

end Sys2Proof.Machine
end

