-- ==== Sys2Proof/Laws/Frame.lean ====
section
/-!
SUPPORT. The frame of each shared operation, and how frames compose; an instruction's frame is put together from these.
-/

namespace Sys2Proof.Machine

/-- Nothing changes. -/
theorem OnlyChanges.refl (c : Part → Prop) (s : State) : OnlyChanges c s s := fun _ _ => rfl

/-- A frame may be widened. -/
theorem OnlyChanges.mono {c d : Part → Prop} {s t : State} (h : OnlyChanges c s t) (hcd : ∀ p, c p → d p) :
    OnlyChanges d s t := fun p hp => h p (fun hc => hp (hcd p hc))

/-- Two updates in a row, each inside the frame. -/
theorem OnlyChanges.trans {c : Part → Prop} {s t u : State} (h : OnlyChanges c s t) (h' : OnlyChanges c t u) :
    OnlyChanges c s u := fun p hp => (h' p hp).trans (h p hp)

/-- The advance changes `pc` only. -/
theorem State.advance_frame (s : State) : OnlyChanges (· = .pc) s s.advance := by
  intro p hp; cases p <;> first | rfl | exact absurd rfl hp

/-- A jump changes `pc` only. -/
theorem State.setPc_frame (s : State) (w : Word) : OnlyChanges (· = .pc) s (s.setPc w) := by
  intro p hp; cases p <;> first | rfl | exact absurd rfl hp

/-- A skip changes `pc` only. -/
theorem State.skipIf_frame (s : State) (c : Bool) : OnlyChanges (· = .pc) s (s.skipIf c) := by
  cases c
  · exact OnlyChanges.refl _ s
  · exact s.advance_frame

/-- Writing `I` changes `I` only. -/
theorem State.setIndex_frame (s : State) (w : Word) : OnlyChanges (· = .index) s (s.setIndex w) := by
  intro p hp; cases p <;> first | rfl | exact absurd rfl hp

/-- A register write changes that register only. -/
theorem State.setReg_frame (s : State) (x : Nibble) (b : Byte) : OnlyChanges (· = .reg x) s (s.setReg x b) := by
  intro p hp
  cases p with
  | reg y => simp [observe, show y ≠ x by rintro rfl; exact hp rfl]
  | _ => rfl

/-- The result-then-flag write changes `V[x]` and `V[15]` only. -/
theorem State.setResultThenFlag_frame (s : State) (x : Nibble) (r f : Byte) :
    OnlyChanges (fun p => p = .reg x ∨ p = .reg 15) s (s.setResultThenFlag x r f) :=
  ((s.setReg_frame x r).mono fun _ h => .inl h).trans (((s.setReg x r).setReg_frame flagReg f).mono fun _ h => .inr h)

/-- The block load changes `V[0]` to `V[x]` only. -/
theorem State.loadFromIndex_frame (s : State) (x : Nibble) :
    OnlyChanges (fun p => ∃ k : Nibble, k.toNat ≤ x.toNat ∧ p = .reg k) s (s.loadFromIndex x) := by
  intro p hp
  cases p with
  | reg y => simp only [observe, State.reg_loadFromIndex]; rw [if_neg (fun h => hp ⟨y, h, rfl⟩)]
  | _ => rfl

/-- A store at `I` changes the bytes it covers only. -/
theorem State.storeAtIndex_frame (s : State) (bs : List Byte) :
    OnlyChanges (fun p => ∃ k, k < bs.length ∧ p = .byte (s.index.toNat + k)) s (s.storeAtIndex bs) := by
  intro p hp
  cases p with
  | byte a =>
    simp only [observe, State.byteAt, State.storeAtIndex_mem, readByte_writeBytes]
    rw [if_neg]
    rintro ⟨h1, h2, -⟩
    exact hp ⟨a - s.index.toNat, by omega, by rw [Nat.add_sub_cancel' h1]⟩
  | _ => rfl

end Sys2Proof.Machine
end

