-- ==== Sys2Proof/Laws/Operands.lean ====
section
/-!
SUPPORT. The values of the operand forms as numbers.
-/

namespace Sys2Proof.Machine

/-- A zero-extended address has the address's value. -/
@[simp] theorem zextAddr_toNat (nnn : Addr12) : (zextAddr nnn).toNat = nnn.toNat := by
  have := nnn.isLt
  simp only [zextAddr, BitVec.toNat_setWidth]
  omega

/-- A zero-extended byte has the byte's value. -/
@[simp] theorem zextByte_toNat (b : Byte) : (zextByte b).toNat = b.toNat := by
  have := b.isLt
  simp only [zextByte, BitVec.toNat_setWidth]
  omega

/-- A zero-extended key number has the key's value. -/
@[simp] theorem zextKey_toNat (k : Nibble) : (zextKey k).toNat = k.toNat := by
  have := k.isLt
  simp only [zextKey, BitVec.toNat_setWidth]
  omega

/-- The target of JumpOffset does not wrap. -/
@[simp] theorem State.offsetTarget_toNat (s : State) (nnn : Addr12) :
    (s.offsetTarget nnn).toNat = nnn.toNat + (s.reg 0).toNat := by
  have := nnn.isLt
  have := (s.reg 0).isLt
  simp only [State.offsetTarget, BitVec.toNat_add, zextAddr_toNat, zextByte_toNat]
  omega

/-- A glyph's address does not wrap. -/
@[simp] theorem glyphAddress_toNat (b : Byte) : (glyphAddress b).toNat = 0x050 + 5 * b.toNat := by
  have := b.isLt
  simp only [glyphAddress, fontBase, BitVec.toNat_ofNat]
  omega

/-- The info of MemoryBounds is the lowest address of the transfer that exceeds 0xFFF. -/
@[simp] theorem State.firstOutOfRange_toNat (s : State) : s.firstOutOfRange.toNat = max s.index.toNat 0x1000 := by
  unfold State.firstOutOfRange
  split
  · rw [show (0x1000 : Word).toNat = 0x1000 from rfl]; omega
  · omega

/-- `V[0]` to `V[x]` are `x + 1` bytes. -/
@[simp] theorem State.regsUpTo_length (s : State) (x : Nibble) : (s.regsUpTo x).length = x.toNat + 1 := by
  have := x.isLt
  simp only [State.regsUpTo, List.length_take, Vector.length_toList]
  omega

/-- The `k`-th byte of `V[0]` to `V[x]` is `V[k]`. -/
theorem State.regsUpTo_getD (s : State) (x k : Nibble) (h : k.toNat ≤ x.toNat) :
    (s.regsUpTo x).getD k.toNat 0 = s.reg k := by
  have := k.isLt
  simp only [State.regsUpTo, State.reg, List.getD_eq_getElem?_getD]
  rw [List.getElem?_take_of_lt (by omega)]
  simp [show k.toNat < 16 from k.isLt]

end Sys2Proof.Machine
end

