-- ==== Sys2Proof/Laws/PerInstr.lean ====
section
/-!
SUPPORT. Per instruction: its encoding lies in its own row of the opcode map (30_encoding.md R83, R84).
-/

namespace Sys2Proof.Laws

/-- Under mask 0xF000 only the family of a word is left. -/
theorem encodeNNN_family (f : Nibble) (nnn : Addr12) : encodeNNN f nnn &&& 0xF000 = f ++ 0#12 := by
  show (f ++ nnn) &&& (BitVec.allOnes 4 ++ 0#12) = _
  rw [BitVec.and_append, BitVec.and_allOnes, BitVec.and_zero]

/-- Under mask 0xF000 only the family of a word is left. -/
theorem encodeXKK_family (f x : Nibble) (kk : Byte) : encodeXKK f x kk &&& 0xF000 = f ++ 0#12 :=
  encodeNNN_family f (x ++ kk)

/-- Under mask 0xF000 only the family of a word is left. -/
theorem encodeXYN_family (f x y n : Nibble) : encodeXYN f x y n &&& 0xF000 = f ++ 0#12 :=
  encodeNNN_family f (x ++ (y ++ n : Byte))

/-- Under mask 0xF0FF the family and the low byte of a word are left. -/
theorem encodeXKK_lowByte (f x : Nibble) (kk : Byte) :
    encodeXKK f x kk &&& 0xF0FF = f ++ (0#4 ++ kk : Addr12) := by
  show (f ++ (x ++ kk : Addr12)) &&& (BitVec.allOnes 4 ++ (0#4 ++ BitVec.allOnes 8 : Addr12)) = _
  rw [BitVec.and_append, BitVec.and_append, BitVec.and_allOnes, BitVec.and_allOnes, BitVec.and_zero]

/-- Under mask 0xF00F the family and the low nibble of a word are left. -/
theorem encodeXYN_lowNibble (f x y n : Nibble) :
    encodeXYN f x y n &&& 0xF00F = f ++ (0#4 ++ (0#4 ++ n : Byte) : Addr12) := by
  show (f ++ (x ++ (y ++ n : Byte) : Addr12)) &&&
    (BitVec.allOnes 4 ++ (0#4 ++ (0#4 ++ BitVec.allOnes 4 : Byte) : Addr12)) = _
  rw [BitVec.and_append, BitVec.and_append, BitVec.and_append, BitVec.and_allOnes, BitVec.and_allOnes, BitVec.and_zero,
    BitVec.and_zero]

/-- The word of an instruction matches the row of R84 that bears the instruction's number. -/
def EncodeRow.Statement (i : Instr) : Prop :=
  ∃ r ∈ opcodeRows, r.number = rowNumber i ∧ r.matchesWord (encode i) = true

theorem EncodeRow.clearScreen : EncodeRow.Statement .clearScreen :=
  ⟨⟨1, 0x00E0, 0xF0FF⟩, by decide, rfl, by decide⟩

theorem EncodeRow.ret : EncodeRow.Statement .ret :=
  ⟨⟨2, 0x00EE, 0xF0FF⟩, by decide, rfl, by decide⟩

theorem EncodeRow.jump (nnn : Addr12) : EncodeRow.Statement (.jump nnn) :=
  ⟨⟨3, 0x1000, 0xF000⟩, by decide, rfl, beq_iff_eq.mpr (encodeNNN_family _ _)⟩

theorem EncodeRow.call (nnn : Addr12) : EncodeRow.Statement (.call nnn) :=
  ⟨⟨4, 0x2000, 0xF000⟩, by decide, rfl, beq_iff_eq.mpr (encodeNNN_family _ _)⟩

theorem EncodeRow.skipEqImm (x : Nibble) (kk : Byte) : EncodeRow.Statement (.skipEqImm x kk) :=
  ⟨⟨5, 0x3000, 0xF000⟩, by decide, rfl, beq_iff_eq.mpr (encodeXKK_family _ _ _)⟩

theorem EncodeRow.skipNeImm (x : Nibble) (kk : Byte) : EncodeRow.Statement (.skipNeImm x kk) :=
  ⟨⟨6, 0x4000, 0xF000⟩, by decide, rfl, beq_iff_eq.mpr (encodeXKK_family _ _ _)⟩

theorem EncodeRow.skipEqReg (x : Nibble) (y : Nibble) : EncodeRow.Statement (.skipEqReg x y) :=
  ⟨⟨7, 0x5000, 0xF00F⟩, by decide, rfl, beq_iff_eq.mpr (encodeXYN_lowNibble _ _ _ _)⟩

theorem EncodeRow.loadImm (x : Nibble) (kk : Byte) : EncodeRow.Statement (.loadImm x kk) :=
  ⟨⟨8, 0x6000, 0xF000⟩, by decide, rfl, beq_iff_eq.mpr (encodeXKK_family _ _ _)⟩

theorem EncodeRow.addImm (x : Nibble) (kk : Byte) : EncodeRow.Statement (.addImm x kk) :=
  ⟨⟨9, 0x7000, 0xF000⟩, by decide, rfl, beq_iff_eq.mpr (encodeXKK_family _ _ _)⟩

theorem EncodeRow.loadReg (x : Nibble) (y : Nibble) : EncodeRow.Statement (.loadReg x y) :=
  ⟨⟨10, 0x8000, 0xF00F⟩, by decide, rfl, beq_iff_eq.mpr (encodeXYN_lowNibble _ _ _ _)⟩

theorem EncodeRow.orReg (x : Nibble) (y : Nibble) : EncodeRow.Statement (.orReg x y) :=
  ⟨⟨11, 0x8001, 0xF00F⟩, by decide, rfl, beq_iff_eq.mpr (encodeXYN_lowNibble _ _ _ _)⟩

theorem EncodeRow.andReg (x : Nibble) (y : Nibble) : EncodeRow.Statement (.andReg x y) :=
  ⟨⟨12, 0x8002, 0xF00F⟩, by decide, rfl, beq_iff_eq.mpr (encodeXYN_lowNibble _ _ _ _)⟩

theorem EncodeRow.xorReg (x : Nibble) (y : Nibble) : EncodeRow.Statement (.xorReg x y) :=
  ⟨⟨13, 0x8003, 0xF00F⟩, by decide, rfl, beq_iff_eq.mpr (encodeXYN_lowNibble _ _ _ _)⟩

theorem EncodeRow.addReg (x : Nibble) (y : Nibble) : EncodeRow.Statement (.addReg x y) :=
  ⟨⟨14, 0x8004, 0xF00F⟩, by decide, rfl, beq_iff_eq.mpr (encodeXYN_lowNibble _ _ _ _)⟩

theorem EncodeRow.sub (x : Nibble) (y : Nibble) : EncodeRow.Statement (.sub x y) :=
  ⟨⟨15, 0x8005, 0xF00F⟩, by decide, rfl, beq_iff_eq.mpr (encodeXYN_lowNibble _ _ _ _)⟩

theorem EncodeRow.shr (x : Nibble) (y : Nibble) : EncodeRow.Statement (.shr x y) :=
  ⟨⟨16, 0x8006, 0xF00F⟩, by decide, rfl, beq_iff_eq.mpr (encodeXYN_lowNibble _ _ _ _)⟩

theorem EncodeRow.subN (x : Nibble) (y : Nibble) : EncodeRow.Statement (.subN x y) :=
  ⟨⟨17, 0x8007, 0xF00F⟩, by decide, rfl, beq_iff_eq.mpr (encodeXYN_lowNibble _ _ _ _)⟩

theorem EncodeRow.shl (x : Nibble) (y : Nibble) : EncodeRow.Statement (.shl x y) :=
  ⟨⟨18, 0x800E, 0xF00F⟩, by decide, rfl, beq_iff_eq.mpr (encodeXYN_lowNibble _ _ _ _)⟩

theorem EncodeRow.skipNeReg (x : Nibble) (y : Nibble) : EncodeRow.Statement (.skipNeReg x y) :=
  ⟨⟨19, 0x9000, 0xF00F⟩, by decide, rfl, beq_iff_eq.mpr (encodeXYN_lowNibble _ _ _ _)⟩

theorem EncodeRow.loadIndex (nnn : Addr12) : EncodeRow.Statement (.loadIndex nnn) :=
  ⟨⟨20, 0xA000, 0xF000⟩, by decide, rfl, beq_iff_eq.mpr (encodeNNN_family _ _)⟩

theorem EncodeRow.jumpOffset (nnn : Addr12) : EncodeRow.Statement (.jumpOffset nnn) :=
  ⟨⟨21, 0xB000, 0xF000⟩, by decide, rfl, beq_iff_eq.mpr (encodeNNN_family _ _)⟩

theorem EncodeRow.random (x : Nibble) (kk : Byte) : EncodeRow.Statement (.random x kk) :=
  ⟨⟨22, 0xC000, 0xF000⟩, by decide, rfl, beq_iff_eq.mpr (encodeXKK_family _ _ _)⟩

theorem EncodeRow.draw (x : Nibble) (y : Nibble) (n : Nibble) : EncodeRow.Statement (.draw x y n) :=
  ⟨⟨23, 0xD000, 0xF000⟩, by decide, rfl, beq_iff_eq.mpr (encodeXYN_family _ _ _ _)⟩

theorem EncodeRow.skipKeyPressed (x : Nibble) : EncodeRow.Statement (.skipKeyPressed x) :=
  ⟨⟨24, 0xE09E, 0xF0FF⟩, by decide, rfl, beq_iff_eq.mpr (encodeXKK_lowByte _ _ _)⟩

theorem EncodeRow.skipKeyNotPressed (x : Nibble) : EncodeRow.Statement (.skipKeyNotPressed x) :=
  ⟨⟨25, 0xE0A1, 0xF0FF⟩, by decide, rfl, beq_iff_eq.mpr (encodeXKK_lowByte _ _ _)⟩

theorem EncodeRow.loadDelay (x : Nibble) : EncodeRow.Statement (.loadDelay x) :=
  ⟨⟨26, 0xF007, 0xF0FF⟩, by decide, rfl, beq_iff_eq.mpr (encodeXKK_lowByte _ _ _)⟩

theorem EncodeRow.waitKey (x : Nibble) : EncodeRow.Statement (.waitKey x) :=
  ⟨⟨27, 0xF00A, 0xF0FF⟩, by decide, rfl, beq_iff_eq.mpr (encodeXKK_lowByte _ _ _)⟩

theorem EncodeRow.fSetDelay (x : Nibble) : EncodeRow.Statement (.fSetDelay x) :=
  ⟨⟨28, 0xF015, 0xF0FF⟩, by decide, rfl, beq_iff_eq.mpr (encodeXKK_lowByte _ _ _)⟩

theorem EncodeRow.fSetSound (x : Nibble) : EncodeRow.Statement (.fSetSound x) :=
  ⟨⟨29, 0xF018, 0xF0FF⟩, by decide, rfl, beq_iff_eq.mpr (encodeXKK_lowByte _ _ _)⟩

theorem EncodeRow.addIndex (x : Nibble) : EncodeRow.Statement (.addIndex x) :=
  ⟨⟨30, 0xF01E, 0xF0FF⟩, by decide, rfl, beq_iff_eq.mpr (encodeXKK_lowByte _ _ _)⟩

theorem EncodeRow.loadFont (x : Nibble) : EncodeRow.Statement (.loadFont x) :=
  ⟨⟨31, 0xF029, 0xF0FF⟩, by decide, rfl, beq_iff_eq.mpr (encodeXKK_lowByte _ _ _)⟩

theorem EncodeRow.storeBCD (x : Nibble) : EncodeRow.Statement (.storeBCD x) :=
  ⟨⟨32, 0xF033, 0xF0FF⟩, by decide, rfl, beq_iff_eq.mpr (encodeXKK_lowByte _ _ _)⟩

theorem EncodeRow.storeRegs (x : Nibble) : EncodeRow.Statement (.storeRegs x) :=
  ⟨⟨33, 0xF055, 0xF0FF⟩, by decide, rfl, beq_iff_eq.mpr (encodeXKK_lowByte _ _ _)⟩

theorem EncodeRow.loadRegs (x : Nibble) : EncodeRow.Statement (.loadRegs x) :=
  ⟨⟨34, 0xF065, 0xF0FF⟩, by decide, rfl, beq_iff_eq.mpr (encodeXKK_lowByte _ _ _)⟩

end Sys2Proof.Laws
end

