-- ==== Sys2Proof/Tests/Slice0.lean ====
section
/-!
SUPPORT. Tests. Every expected value is taken from spec/: the vectors E1 to E34, N1 to N8, B1 to B21, A1 to A36, M1 to M23,
G1 to G15, Y1 to Y14, H1 to H10, T1 to T7 of 95_test_vectors.md (named in each docstring), or the encoding rows of R84.
After them, for every obligation with hypotheses, a state and operands that meet them.
-/

namespace Sys2Proof.Tests

open Sys2Proof Sys2Proof.Machine

/-! ### Helpers -/

/-- The reset state with some general registers set. -/
def withRegs (l : List (Nibble × Byte)) : State := l.foldl (fun s p => s.setReg p.1 p.2) State.reset

/-- A state with some bytes of memory set. -/
def poke (s : State) (a : Nat) (bytes : List Byte) : State := { s with mem := writeBytes s.mem a bytes }

/-- A state with some keys held down. -/
def hold (s : State) (keys : List Nibble) : State :=
  { s with keypad := keys.foldl (fun v k => v.set k.toNat true k.isLt) s.keypad }

/-- The state an outcome goes on with; the state given where it does not go on. -/
def stateOr (s : State) : Result → State
  | .next t => t
  | _ => s

/-- The state an outcome goes on with, if it goes on. -/
def nextOf : Result → Option State
  | .next t => some t
  | _ => none

/-- Code and info of the fault of an outcome. -/
def faultOf : Result → Option (Nat × Nat)
  | .fault f => some (faultCode f, faultInfo f)
  | _ => none

/-- What one step of an opcode placed at `pc` shows: some view of the next state, none where it stops. -/
def shows {α : Type} (view : State → α) (w : Nat) (s : State) : Option α :=
  match step (s.withFetchWord 16 w) with
  | .next t => some (view t)
  | _ => none

/-- The fault of one step of an opcode placed at `pc`. -/
def stops (w : Nat) (s : State) : Option (Nat × Nat) := faultOf (step (s.withFetchWord 16 w))

/-- The cells of the framebuffer that are 1, among those asked about. -/
def lit (cells : List Nat) (s : State) : List Nat := cells.filter (fun k => s.cell k)

/-! ### WellFormed -/

/-- The ill-formed term: an Unknown that carries an opcode of a row (R80), for rows of several families. -/
theorem test_illFormed_refused :
    [0x00E0, 0x0FEE, 0x1ABC, 0x5AB0, 0x8014, 0xD000, 0xE49E, 0xF265].map
      (fun w => (Decoded.unknown w).wellFormed) = List.replicate 8 false := by decide

/-- The Unknown opcodes of E5 to E7, E13, E21, E23, E31 and E34 are well formed. -/
theorem test_unknown_wellFormed :
    [0x0000, 0x00E1, 0x0123, 0x5AB1, 0x8018, 0x801D, 0x801F, 0x9AB1, 0xE09F, 0xE000, 0xF0FF, 0xF000, 0xF075, 0xF085].map
      (fun w => (Decoded.unknown w).wellFormed) = List.replicate 14 true := by decide

/-- Every instruction is well formed. -/
theorem test_instr_wellFormed : (Decoded.defined (.draw 15 15 15)).wellFormed = true := by decide

/-! ### Decode: a written-out word for every constructor (E1 to E34) -/

/-- E1 to E4 and E8, E9, E25: families 0, 1, 2, B. -/
theorem test_decode_control :
    decode 0x00E0 = .defined .clearScreen ∧ decode 0x01E0 = .defined .clearScreen ∧
    decode 0x00EE = .defined .ret ∧ decode 0x0FEE = .defined .ret ∧ decode 0x1ABC = .defined (.jump 0xABC) ∧
    decode 0x2FFF = .defined (.call 0xFFF) ∧ decode 0xB300 = .defined (.jumpOffset 0x300) := by decide

/-- E10 to E12, E22: the skips. -/
theorem test_decode_skips :
    decode 0x3A7F = .defined (.skipEqImm 10 0x7F) ∧ decode 0x4000 = .defined (.skipNeImm 0 0) ∧
    decode 0x5AB0 = .defined (.skipEqReg 10 11) ∧ decode 0x9AB0 = .defined (.skipNeReg 10 11) := by decide

/-- E14 to E20, E26: loads, arithmetic, logic, shifts, random. -/
theorem test_decode_alu :
    decode 0x6005 = .defined (.loadImm 0 5) ∧ decode 0x7FFF = .defined (.addImm 15 0xFF) ∧
    decode 0x8010 = .defined (.loadReg 0 1) ∧ decode 0x8011 = .defined (.orReg 0 1) ∧
    decode 0x8012 = .defined (.andReg 0 1) ∧ decode 0x8013 = .defined (.xorReg 0 1) ∧
    decode 0x8014 = .defined (.addReg 0 1) ∧ decode 0x8015 = .defined (.sub 0 1) ∧
    decode 0x8016 = .defined (.shr 0 1) ∧ decode 0x8017 = .defined (.subN 0 1) ∧
    decode 0x801E = .defined (.shl 0 1) ∧ decode 0xC30F = .defined (.random 3 0x0F) := by decide

/-- E24, E33: index and memory transfers. -/
theorem test_decode_memory :
    decode 0xA123 = .defined (.loadIndex 0x123) ∧ decode 0xF21E = .defined (.addIndex 2) ∧
    decode 0xF029 = .defined (.loadFont 0) ∧ decode 0xF033 = .defined (.storeBCD 0) ∧
    decode 0xF255 = .defined (.storeRegs 2) ∧ decode 0xF265 = .defined (.loadRegs 2) := by decide

/-- E27 to E30, E32: display, keypad, timers. -/
theorem test_decode_display_keypad_timers :
    decode 0xD125 = .defined (.draw 1 2 5) ∧ decode 0xD000 = .defined (.draw 0 0 0) ∧
    decode 0xE49E = .defined (.skipKeyPressed 4) ∧ decode 0xE4A1 = .defined (.skipKeyNotPressed 4) ∧
    decode 0xF207 = .defined (.loadDelay 2) ∧ decode 0xF10A = .defined (.waitKey 1) ∧
    decode 0xF115 = .defined (.fSetDelay 1) ∧ decode 0xF118 = .defined (.fSetSound 1) := by decide

/-- E5 to E7, E13, E21, E23, E31, E34: Unknown carries the opcode. -/
theorem test_decode_unknown :
    [0x0000, 0x00E1, 0x0123, 0x5AB1, 0x8018, 0x801D, 0x801F, 0x9AB1, 0xE09F, 0xE000, 0xF0FF, 0xF000, 0xF075, 0xF085].map decode =
    [.unknown 0x0000, .unknown 0x00E1, .unknown 0x0123, .unknown 0x5AB1, .unknown 0x8018, .unknown 0x801D, .unknown 0x801F,
      .unknown 0x9AB1, .unknown 0xE09F, .unknown 0xE000, .unknown 0xF0FF, .unknown 0xF000, .unknown 0xF075,
      .unknown 0xF085] := by decide

/-- The fields of 0xD125, bit by bit 1101 0001 0010 0101 (S10). -/
theorem test_fields :
    fieldFamily 0b1101000100100101 = 0xD ∧ fieldX 0b1101000100100101 = 1 ∧ fieldY 0b1101000100100101 = 2 ∧
    fieldN 0b1101000100100101 = 5 ∧ fieldKK 0b1101000100100101 = 0x25 ∧ fieldNNN 0b1101000100100101 = 0x125 := by decide

/-- The host's table word is laid out high byte first. -/
theorem test_decodeTableWord :
    decodeTableWord 16 0x1ABC = some (.jump 0xABC) ∧ decodeTableWord 16 0x5AB1 = none := by decide

/-! ### The cycle -/

/-- N1: Unknown advances and reports. -/
theorem test_unknown : shows (·.pc) 0x0000 State.reset = some 0x202 ∧ diagUnknown State.reset = some 0x0000 ∧
    cycleOutcome State.reset = .normal := by decide

/-- N2, N5: the last legal fetch address. -/
theorem test_fetch_last : shows (·.pc) 0x1200 (State.reset.setPc 0xFFE) = some 0x200 ∧
    shows (fun t => (t.reg 0, t.pc)) 0x6001 (State.reset.setPc 0xFFE) = some (1, 0x1000) := by decide

/-- N3, N4: above it, FetchBounds with `pc`. -/
theorem test_fetch_bounds : faultOf (step (State.reset.setPc 0xFFF)) = some (4, 0xFFF) ∧
    faultOf (step (State.reset.setPc 0x1000)) = some (4, 0x1000) := by decide

/-- N6: an odd `pc` executes. -/
theorem test_fetch_odd : shows (fun t => (t.reg 10, t.pc)) 0x6A55 (State.reset.setPc 0x201) = some (0x55, 0x203) := by decide

/-! ### Control transfer -/

/-- B1 and N7. -/
theorem test_jump : shows (·.pc) 0x1ABC State.reset = some 0xABC ∧
    nextOf (step (State.reset.withFetchWord 16 0x1200)) = some (State.reset.withFetchWord 16 0x1200) := by decide

/-- B3, B4. -/
theorem test_call :
    shows (fun t => (t.stack[0], t.sp, t.pc)) 0x220A (State.reset.setPc 0x204) = some (0x206, 1, 0x20A) ∧
    shows (fun t => (t.stack[15], t.sp, t.pc)) 0x2300 { State.reset with sp := 15 } = some (0x202, 16, 0x300) := by decide

/-- B5. -/
theorem test_call_overflow : stops 0x2300 { State.reset with sp := 16 } = some (1, 0x200) := by decide

/-- B6, B8. -/
theorem test_ret :
    shows (fun t => (t.stack[0], t.sp, t.pc)) 0x00EE { State.reset with sp := 1, stack := State.reset.stack.set 0 0x206 } =
      some (0x206, 0, 0x206) ∧
    shows (fun t => (t.sp, t.pc)) 0x00EE { State.reset with sp := 16, stack := State.reset.stack.set 15 0xABC } =
      some (15, 0xABC) := by decide

/-- B7. -/
theorem test_ret_underflow : stops 0x00EE State.reset = some (2, 0x200) := by decide

/-- B9 to B11. -/
theorem test_jumpOffset : shows (·.pc) 0xB300 (withRegs [(0, 4)]) = some 0x304 ∧
    shows (·.pc) 0xBFFF (withRegs [(0, 0xFF)]) = some 0x10FE ∧ shows (·.pc) 0xB300 (withRegs [(3, 9)]) = some 0x300 := by
  decide

/-- B12, B13, B21. -/
theorem test_skipEqImm : shows (·.pc) 0x332A (withRegs [(3, 0x2A)]) = some 0x204 ∧
    shows (·.pc) 0x332A (withRegs [(3, 0x2B)]) = some 0x202 ∧
    shows (·.pc) 0x3000 (State.reset.setPc 0xFFE) = some 0x1002 := by decide

/-- B14, B15. -/
theorem test_skipNeImm : shows (·.pc) 0x432A (withRegs [(3, 0x2A)]) = some 0x202 ∧
    shows (·.pc) 0x432A State.reset = some 0x204 := by decide

/-- B16 to B18. -/
theorem test_skipEqReg : shows (·.pc) 0x5120 (withRegs [(1, 7), (2, 7)]) = some 0x204 ∧
    shows (·.pc) 0x5120 (withRegs [(1, 7), (2, 8)]) = some 0x202 ∧ shows (·.pc) 0x5330 State.reset = some 0x204 := by decide

/-- B19, B20. -/
theorem test_skipNeReg : shows (·.pc) 0x9120 (withRegs [(1, 7), (2, 8)]) = some 0x204 ∧
    shows (·.pc) 0x9330 State.reset = some 0x202 := by decide

/-! ### Loads, arithmetic, logic, shifts, random -/

/-- A1. -/
theorem test_loadImm : shows (fun t => (t.reg 10, t.pc)) 0x6AFF State.reset = some (0xFF, 0x202) := by decide

/-- A2, A3. -/
theorem test_addImm : shows (fun t => (t.reg 0, t.reg 15)) 0x7001 (withRegs [(0, 0xFF)]) = some (0, 0) ∧
    shows (fun t => (t.reg 0, t.reg 15)) 0x70FF (withRegs [(0, 5), (15, 1)]) = some (4, 1) := by decide

/-- A4: LoadReg, Or, And, Xor, the flag kept. -/
theorem test_logic : [0x8120, 0x8121, 0x8122, 0x8123].map
      (fun w => shows (fun t => (t.reg 1, t.reg 15)) w (withRegs [(1, 0xF0), (2, 0x3C), (15, 9)])) =
    [some (0x3C, 9), some (0xFC, 9), some (0x30, 9), some (0xCC, 9)] := by decide

/-- A5 to A9. -/
theorem test_addReg :
    [(5, 3), (0xFF, 1), (0xFF, 0xFF), (0x80, 0x7F)].map
      (fun p => shows (fun t => (t.reg 0, t.reg 15)) 0x8014 (withRegs [(0, p.1), (1, p.2), (15, 9)])) =
    [some (8, 0), some (0, 1), some (0xFE, 1), some (0xFF, 0)] ∧
    shows (fun t => (t.reg 0, t.reg 15)) 0x8004 (withRegs [(0, 0x90)]) = some (0x20, 1) := by decide

/-- A10 to A12: the flag register as an operand and as the destination. -/
theorem test_addReg_flag : shows (·.reg 15) 0x8F14 (withRegs [(15, 5), (1, 3)]) = some 0 ∧
    shows (·.reg 15) 0x8F14 (withRegs [(15, 0xFF), (1, 2)]) = some 1 ∧
    shows (fun t => (t.reg 0, t.reg 15)) 0x80F4 (withRegs [(0, 200), (15, 100)]) = some (44, 1) := by decide

/-- A13 to A16. -/
theorem test_sub : [(0x0A, 3), (5, 5), (3, 5), (0, 1)].map
      (fun p => shows (fun t => (t.reg 0, t.reg 15)) 0x8015 (withRegs [(0, p.1), (1, p.2)])) =
    [some (7, 1), some (0, 1), some (0xFE, 0), some (0xFF, 0)] := by decide

/-- A17, A18. -/
theorem test_sub_flag : shows (·.reg 15) 0x8F15 (withRegs [(15, 3), (1, 5)]) = some 0 ∧
    shows (·.reg 15) 0x8F15 (withRegs [(15, 5), (1, 3)]) = some 1 := by decide

/-- A19 to A22. -/
theorem test_subN : [(3, 0x0A), (5, 3), (3, 5)].map
      (fun p => shows (fun t => (t.reg 0, t.reg 15)) 0x8017 (withRegs [(0, p.1), (1, p.2)])) =
    [some (7, 1), some (0xFE, 0), some (2, 1)] ∧
    shows (fun t => (t.reg 0, t.reg 15)) 0x8007 (withRegs [(0, 7)]) = some (0, 1) := by decide

/-- A23 to A25. -/
theorem test_shr :
    shows (fun t => (t.reg 2, t.reg 15, t.reg 7)) 0x8276 (withRegs [(2, 5), (7, 0xAA)]) = some (2, 1, 0xAA) ∧
    shows (fun t => (t.reg 2, t.reg 15)) 0x8206 (withRegs [(2, 0x80)]) = some (0x40, 0) ∧
    shows (fun t => (t.reg 2, t.reg 15)) 0x8206 (withRegs [(2, 0xFF)]) = some (0x7F, 1) := by decide

/-- A26, A27: the flag is written last. -/
theorem test_shr_flag : shows (·.reg 15) 0x8F06 (withRegs [(15, 3)]) = some 1 ∧
    shows (·.reg 15) 0x8F06 (withRegs [(15, 2)]) = some 0 := by decide

/-- A28 to A30. -/
theorem test_shl : [0xC1, 0x81, 0x7F].map (fun b => shows (fun t => (t.reg 2, t.reg 15)) 0x820E (withRegs [(2, b)])) =
    [some (0x82, 1), some (2, 1), some (0xFE, 0)] := by decide

/-- A31, A32: the flag is written last. -/
theorem test_shl_flag : shows (·.reg 15) 0x8F0E (withRegs [(15, 0x80)]) = some 1 ∧
    shows (·.reg 15) 0x8F0E (withRegs [(15, 0x40)]) = some 0 := by decide

/-- A33 to A35, with a driven `rnd`. -/
theorem test_random : [(0xC30F, 0xB7), (0xC300, 0xB7), (0xC3FF, 0x5A)].map
      (fun p => shows (fun t => (t.reg 3, t.rndIn)) p.1 { withRegs [(3, 0xEE)] with rndIn := some p.2 }) =
    [some (0x07, some 0xB7), some (0, some 0xB7), some (0x5A, some 0x5A)] := by decide

/-! ### Index register and memory transfers -/

/-- M1. -/
theorem test_loadIndex : shows (·.index) 0xA300 (State.reset.setIndex 0xFFFF) = some 0x300 := by decide

/-- M2 to M4. -/
theorem test_addIndex : [(0x0300, 0x10), (0x0FFF, 1), (0xFFFF, 1)].map
      (fun p => shows (fun t => (t.index, t.reg 15)) 0xF21E ((withRegs [(2, p.2)]).setIndex p.1)) =
    [some (0x310, 0), some (0x1000, 0), some (0, 0)] := by decide

/-- M5 to M8. -/
theorem test_loadFont : [0x07, 0x0F, 0x10, 0xFF].map (fun b => shows (·.index) 0xF029 (withRegs [(0, b)])) =
    [some 0x073, some 0x09B, some 0x0A0, some 0x54B] := by decide

/-- M9 to M11. -/
theorem test_storeBCD :
    [254, 0, 9, 100, 255].map (fun b => shows (fun t => [t.byteAt 0x300, t.byteAt 0x301, t.byteAt 0x302]) 0xF033
      ((withRegs [(0, b)]).setIndex 0x300)) =
    [some [2, 5, 4], some [0, 0, 0], some [0, 0, 9], some [1, 0, 0], some [2, 5, 5]] ∧
    shows (fun t => [t.byteAt 0xFFD, t.byteAt 0xFFE, t.byteAt 0xFFF]) 0xF033 ((withRegs [(0, 123)]).setIndex 0xFFD) =
      some [1, 2, 3] := by decide

/-- M12 to M14. -/
theorem test_storeBCD_bounds : [0xFFE, 0x1000, 0x2345].map (fun a => stops 0xF033 (State.reset.setIndex a)) =
    [some (3, 0x1000), some (3, 0x1000), some (3, 0x2345)] := by decide

/-- M15, M18, M19, M23. -/
theorem test_storeRegs :
    shows (fun t => ([t.byteAt 0x400, t.byteAt 0x401, t.byteAt 0x402, t.byteAt 0x403], t.index)) 0xF255
      ((withRegs [(0, 0x11), (1, 0x22), (2, 0x33)]).setIndex 0x400) = some ([0x11, 0x22, 0x33, 0], 0x400) ∧
    shows (·.byteAt 0xFFF) 0xF055 ((withRegs [(0, 0x77)]).setIndex 0xFFF) = some 0x77 ∧
    shows (fun t => (t.byteAt 0x200, t.byteAt 0x201, t.pc)) 0xF155 ((withRegs [(0, 0x12)]).setIndex 0x200) =
      some (0x12, 0, 0x202) ∧
    shows (·.byteAt 0) 0xF055 (withRegs [(0, 0xAB)]) = some 0xAB := by decide

/-- M17. -/
theorem test_storeRegs_bounds : stops 0xFF55 (State.reset.setIndex 0xFF1) = some (3, 0x1000) := by decide

/-- M20, M21: block loads, from plain memory and from the font. -/
theorem test_loadRegs :
    shows (fun t => ([t.reg 0, t.reg 1, t.reg 2, t.reg 3], t.index)) 0xF265
      ((poke (withRegs [(3, 0x99)]) 0x300 [2, 5, 4]).setIndex 0x300) = some ([2, 5, 4, 0x99], 0x300) ∧
    shows (fun t => [t.reg 0, t.reg 1, t.reg 2, t.reg 3, t.reg 4]) 0xF465 (State.reset.setIndex 0x050) =
      some [0xF0, 0x90, 0x90, 0x90, 0xF0] := by decide

/-- M22. -/
theorem test_loadRegs_bounds : stops 0xFF65 (State.reset.setIndex 0xFF1) = some (3, 0x1000) := by decide

/-! ### Framebuffer -/

/-- G14, G15. -/
theorem test_clearScreen : [0x00E0, 0x07E0].map (fun w => shows (fun t => (t.fb, t.reg 15)) w
      { withRegs [(15, 1)] with fb := Vector.replicate 32 0xFF00FF }) =
    [some (Vector.replicate 32 0, 1), some (Vector.replicate 32 0, 1)] := by decide

/-- G1, G5, G9: the glyph of digit 0 in the corner; clipping, no wrap; `n = 0`. -/
theorem test_draw :
    shows (fun t => (lit ((List.range 8) ++ (List.range 8).map (· + 64) ++ (List.range 8).map (· + 256)) t, t.reg 15)) 0xD125
      ((withRegs [(15, 5)]).setIndex 0x050) = some ([0, 1, 2, 3, 64, 67, 256, 257, 258, 259], 0) ∧
    shows (fun t => lit [2043, 2044, 2045, 2046, 2047, 1984, 1985, 0, 1] t) 0xD121
      ((poke (withRegs [(1, 60), (2, 31)]) 0x300 [0xFF]).setIndex 0x300) = some [2044, 2045, 2046, 2047] ∧
    shows (·.reg 15) 0xD120 ((withRegs [(15, 1)]).setIndex 0x1234) = some 0 := by decide

/-- G8, G10, G12, G13: a collision; the bounds, clipped rows included; the anchor taken from `V[15]` before it is cleared. -/
theorem test_draw_corners :
    shows (fun t => (t.cell 7, t.reg 15)) 0xD121
      { (poke State.reset 0x300 [0x01]).setIndex 0x300 with fb := State.reset.fb.set 0 0x80 } = some (false, 1) ∧
    stops 0xD125 (State.reset.setIndex 0xFFC) = some (3, 0x1000) ∧
    stops 0xD125 ((withRegs [(2, 31)]).setIndex 0xFFC) = some (3, 0x1000) ∧
    shows (fun t => (t.cell 5, t.reg 15)) 0xDF01 ((poke (withRegs [(15, 5)]) 0x300 [0x80]).setIndex 0x300) =
      some (true, 0) := by decide

/-! ### Keypad and timer instructions -/

/-- Y1, Y2, Y7. -/
theorem test_skipKeyPressed : shows (·.pc) 0xE49E (hold (withRegs [(4, 10)]) [10]) = some 0x204 ∧
    shows (·.pc) 0xE49E (withRegs [(4, 10)]) = some 0x202 ∧
    shows (fun t => (t.pc, t.pendingKey)) 0xE49E { withRegs [(4, 10)] with pendingKey := some 10 } =
      some (0x202, some 10) := by decide

/-- Y3, Y4. -/
theorem test_skipKeyNotPressed : shows (·.pc) 0xE4A1 (hold (withRegs [(4, 10)]) [10]) = some 0x202 ∧
    shows (·.pc) 0xE4A1 (withRegs [(4, 10)]) = some 0x204 := by decide

/-- Y5, Y6. -/
theorem test_key_index : stops 0xE49E (withRegs [(4, 0x10)]) = some (5, 0x10) ∧
    stops 0xE4A1 (withRegs [(4, 0x10)]) = some (5, 0x10) ∧
    stops 0xE49E (hold (withRegs [(4, 0x1A)]) [10]) = some (5, 0x1A) := by decide

/-- Y8: the stall leaves the whole state, a held key does not resolve it, and it is reported. -/
theorem test_waitKey_stall :
    nextOf (step ((hold State.reset [3]).withFetchWord 16 0xF10A)) = some ((hold State.reset [3]).withFetchWord 16 0xF10A) ∧
    cycleOutcome ((hold State.reset [3]).withFetchWord 16 0xF10A) = .waitingForKey := by decide

/-- Y9, Y10. -/
theorem test_waitKey :
    shows (fun t => (t.reg 1, t.pendingKey, t.pc)) 0xF10A { State.reset with pendingKey := some 11 } =
      some (0x0B, none, 0x202) ∧
    shows (fun t => (t.reg 15, t.pendingKey)) 0xFF0A { withRegs [(15, 7)] with pendingKey := some 0 } =
      some (0, none) := by decide

/-- Y11. -/
theorem test_loadDelay : shows (fun t => (t.reg 2, t.dt)) 0xF207 { State.reset with dt := 8 } = some (8, 8) := by decide

/-- Y12. -/
theorem test_fSetDelay : shows (·.dt) 0xF115 (withRegs [(1, 0x0B)]) = some 0x0B := by decide

/-- Y13, Y14. -/
theorem test_fSetSound : shows (fun t => (t.st, t.audioActive)) 0xF118 (withRegs [(1, 5)]) = some (5, false) ∧
    shows (fun t => (t.st, t.audioActive)) 0xF118 { State.reset with st := 9, audioActive := true } =
      some (0, true) := by decide

/-! ### Host commands -/

/-- H4: only the image bytes are written, `pc` stays. -/
theorem test_loadProgram : (runCommand (.loadProgram [0x12, 0x00]) (poke State.reset 0x200 [0xAA, 0xAA, 0xAA])).1 =
    poke State.reset 0x200 [0x12, 0x00, 0xAA] := by decide

/-- H2, H3: 3585 bytes are refused, no byte is accepted. -/
theorem test_loadProgram_length : (Config.progMax < 3585 ∧ ¬ Config.progMax < 3584) ∧
    runCommand (.loadProgram []) State.reset = (State.reset, .ok) := by decide

/-- H5 to H7. -/
theorem test_setKey :
    let pressed := (runCommand (.setKey 3 true) State.reset).1
    let released := (runCommand (.setKey 3 false) pressed).1
    let other := (runCommand (.setKey 7 true) pressed).1
    (pressed.keypad[3], pressed.pendingKey) = (true, some 3) ∧
      (released.keypad[3], released.pendingKey) = (false, some 3) ∧
      (other.keypad[7], other.keypad[3], other.pendingKey) = (true, true, some 7) := by decide

/-- H8, H9: the timer writers. -/
theorem test_timer_writers :
    (runCommand .delayTimer (runCommand (.setDelayTimer 200) State.reset).1).2 = .byte 200 ∧
    (let t := (runCommand (.setSoundTimer 3) State.reset).1; (t.st, t.audioActive) = (3, false)) := by decide

/-- T2, T3, T4, T6: the signal is true when the step found `ST > 0`; the counters stop at 0. -/
theorem test_stepTimers : [(0, 2, false), (2, 1, true), (0, 0, true)].map
      (fun p => let t := (runCommand .stepTimers { State.reset with dt := p.1, st := p.2.1, audioActive := p.2.2 }).1;
        (t.dt, t.st, t.audioActive)) = [(0, 1, true), (1, 0, true), (0, 0, false)] := by decide

/-- H10: `reset` gives the reset state back, the inputs kept. -/
theorem test_reset : (runCommand .reset { withRegs [(3, 7)] with mem := [(0x300, 5)], sp := 3 }).1 = State.reset := by decide

/-- N3, N8: a faulting `cycle` command commits nothing and faults again. -/
theorem test_cycle_fault : runCommand (.cycle 0) (State.reset.setPc 0xFFF) =
    (State.reset.setPc 0xFFF, .cycled (.fault (.fetchBounds 0xFFF)) none) := by decide

/-- A36 and A33 by command: `rnd` is read by Random alone, and only while the cycle lasts. -/
theorem test_cycle_rnd :
    (let t := stateOr State.reset
        (step { (withRegs [(3, 0xEE)]).withFetchWord 16 0xC30F with commands := [.cycle 0xB7, .stepTimers] });
      (t.reg 3, t.rndIn, t.commands) = (0x07, none, [.stepTimers])) ∧
    (let t := stateOr State.reset (step { (withRegs [(0, 1)]).withFetchWord 16 0x6005 with commands := [.cycle 0xFF] });
      (t.reg 0, t.rndIn, t.commands) = (5, none, [])) := by decide

/-- N1, A33 and Y8 by command: the state left, the outcome and the diagnostic. -/
theorem test_cycle_answers :
    (runCommand (.cycle 0) State.reset).2 = .cycled .normal (some 0x0000) ∧
    (let a := runCommand (.cycle 0xB7) ((withRegs [(3, 0xEE)]).withFetchWord 16 0xC30F);
      (a.1.reg 3, a.1.rndIn, a.2) = (0x07, none, .cycled .normal none)) ∧
    runCommand (.cycle 0) (State.reset.withFetchWord 16 0xF10A) =
      (State.reset.withFetchWord 16 0xF10A, .cycled .waitingForKey none) := by decide

/-- Cells are row-major: column 1 of row 1 is cell 65 (10_state.md R27). -/
theorem test_cell_number :
    lit [1, 63, 64, 65, 66, 2047] { State.reset with fb := State.reset.fb.set 1 0x2 } = [65] := by decide

/-! ### Witnesses: states and operands that meet the hypotheses of the obligations -/

/-- DecodeOfEncodeIsIdentity. -/
theorem witness_wellFormed : (Decoded.unknown 0x5AB1).wellFormed = true ∧ (Decoded.defined .ret).wellFormed = true := by
  decide

/-- EncodeOfDecodeLosesOnlyTheIgnoredNibble: both alternatives. -/
theorem witness_decodes : decode 0x1ABC = .defined (.jump 0xABC) ∧ decode 0x0FEE = .defined .ret := by decide

/-- UnknownExactlyWhenNoRowMatches, MatchingRowNamesTheInstruction: a word of each kind. -/
theorem witness_rows : inOpcodeMap 0x5AB1 = false ∧ decode 0x5AB1 = .unknown 0x5AB1 ∧
    (⟨7, 0x5000, 0xF00F⟩ : OpcodeRow) ∈ opcodeRows ∧ OpcodeRow.matchesWord ⟨7, 0x5000, 0xF00F⟩ 0x5AB0 = true := by decide

/-- StepRunsTheDecodedInstruction: at the last legal fetch address, with no command queued and with a `cycle` queued. -/
theorem witness_step (c : List Command) (hc : c = [] ∨ c = [.cycle 7]) :
    let s := { (State.reset.setPc 0xFFE).withFetchWord 16 0x6001 with commands := c }
    s.pc.toNat ≤ 0xFFE ∧ decode (opcodeOfBytes (s.byteAt s.pc.toNat) (s.byteAt (s.pc.toNat + 1))) = .defined (.loadImm 0 1) ∧
      (s.commands = [] ∨ s.commands = .cycle 7 :: []) :=
  ⟨(by decide : (0xFFE : Word).toNat ≤ 0xFFE),
    (by decide : (let s := (State.reset.setPc 0xFFE).withFetchWord 16 0x6001;
      decode (opcodeOfBytes (s.byteAt s.pc.toNat) (s.byteAt (s.pc.toNat + 1)))) = .defined (.loadImm 0 1)), hc⟩

/-- StepAppliesTheOldestHostCommand, HostCannotReachTheProgramsState. -/
theorem witness_command : ({ State.reset with commands := [.stepTimers] } : State).commands = .stepTimers :: [] ∧
    Command.stepTimers ≠ .reset ∧ ∀ r, Command.stepTimers ≠ .cycle r := ⟨rfl, nofun, nofun⟩

/-- UnknownOnlyAdvancesAndReports: with an empty queue and with a `cycle` queued. -/
theorem witness_unknown : State.reset.commands = [] ∧ State.reset.fetch = some 0x0000 ∧ decode 0x0000 = .unknown 0x0000 ∧
    ({ State.reset with commands := [.cycle 7] } : State).commands = .cycle 7 :: [] ∧
    ({ State.reset with commands := [.cycle 7] } : State).fetch = some 0x0000 := by decide

/-- FetchBoundsExactlyAboveFFE: the fault just above the boundary, with an empty queue and with a `cycle` queued; none at
the boundary. -/
theorem witness_fetchBounds : (State.reset.setPc 0xFFF).commands = [] ∧ 0xFFE < (State.reset.setPc 0xFFF).pc.toNat ∧
    step (State.reset.setPc 0xFFF) = .fault (.fetchBounds 0xFFF) ∧
    (∃ r rest, ({ State.reset.setPc 0xFFF with commands := [.cycle 7, .reset] } : State).commands = .cycle r :: rest) ∧
    step { State.reset.setPc 0xFFF with commands := [.cycle 7, .reset] } = .fault (.fetchBounds 0xFFF) ∧
    faultOf (step (State.reset.setPc 0xFFE)) = none ∧
    faultOf (step { State.reset.setPc 0xFFE with commands := [.cycle 7] }) = none :=
  ⟨rfl, by decide, rfl, ⟨7, [.reset], rfl⟩, rfl, by decide, by decide⟩

/-- FaultCommitsNothingAndRepeats: Return on an empty stack. -/
theorem witness_fault : runCommand (.cycle 7) (State.reset.withFetchWord 16 0x00EE) =
    (State.reset.withFetchWord 16 0x00EE, .cycled (.fault (.stackUnderflow 0x200)) none) := by decide

/-- EachInstructionHasItsOneFault: each alternative, at the boundary. -/
theorem witness_each_fault :
    exec (.call 0x300) { State.reset with sp := 16 } = .fault (.stackOverflow 0x200) ∧
    exec .ret State.reset = .fault (.stackUnderflow 0x200) ∧
    exec (.draw 1 2 2) (State.reset.setIndex 0xFFF) = .fault (.memoryBounds 0x1000) ∧
    exec (.storeBCD 0) (State.reset.setIndex 0xFFE) = .fault (.memoryBounds 0x1000) ∧
    exec (.storeRegs 15) (State.reset.setIndex 0xFF1) = .fault (.memoryBounds 0x1000) ∧
    exec (.loadRegs 0) (State.reset.setIndex 0x2345) = .fault (.memoryBounds 0x2345) ∧
    exec (.skipKeyPressed 4) (withRegs [(4, 16)]) = .fault (.keyIndex 16) ∧
    exec (.skipKeyNotPressed 4) (withRegs [(4, 255)]) = .fault (.keyIndex 255) :=
  ⟨rfl, rfl, rfl, rfl, rfl, rfl, rfl, rfl⟩

/-- EveryCycleHasOneOfThreeOutcomes, WaitKeyStallsOrConsumesTheLatch: the stall and the latched key. -/
theorem witness_waitKey :
    (let s := State.reset.withFetchWord 16 0xF10A;
      cycleOutcome s = .waitingForKey ∧ s.pendingKey = none ∧ s.decoded = some (.defined (.waitKey 1))) ∧
    (let s := State.setKey (State.reset.withFetchWord 16 0xF10A) 15 true;
      cycleOutcome s = .normal ∧ s.pendingKey = some 15 ∧ s.decoded = some (.defined (.waitKey 1))) := by decide

/-- EveryCycleHasOneOfThreeOutcomes: a cycle that is no stalled WaitKey, with no diagnostic, and one with a diagnostic. -/
theorem witness_normal :
    (∃ t, cycle (State.reset.withFetchWord 16 0x6005) = .next t) ∧
    ¬ ((State.reset.withFetchWord 16 0x6005).pendingKey = none ∧
      ∃ x, (State.reset.withFetchWord 16 0x6005).decoded = some (.defined (.waitKey x))) ∧
    (∀ w o, (State.reset.withFetchWord 16 0x6005).fetch = some w → decode w ≠ .unknown o) ∧
    State.reset.fetch = some 0x0000 ∧ decode 0x0000 = .unknown 0x0000 := by
  have hf : (State.reset.withFetchWord 16 0x6005).fetch = some 0x6005 := by decide
  have hd : (State.reset.withFetchWord 16 0x6005).decoded = some (.defined (.loadImm 0 5)) := by decide
  refine ⟨⟨_, rfl⟩, ?_, ?_, by decide, by decide⟩
  · rintro ⟨-, x, hx⟩
    rw [hd] at hx
    cases hx
  · intro w o hw
    rw [hf] at hw
    cases hw
    exact (show decode 0x6005 = .defined (.loadImm 0 5) by decide) ▸ nofun

/-- CycleCommandCommitsAndAnswers: a cycle that goes on and one that faults. -/
theorem witness_cycle_command :
    (∃ t, cycle { State.reset.withFetchWord 16 0xC30F with rndIn := some 0xB7 } = .next t) ∧
    cycle { State.reset.withFetchWord 16 0x00EE with rndIn := some 0xB7 } = .fault (.stackUnderflow 0x200) :=
  ⟨⟨_, rfl⟩, rfl⟩

/-- CycleLeavesTimersKeypadAndAudio: each of its three changes. -/
theorem witness_cycle_changes :
    (let s := (withRegs [(1, 5)]).withFetchWord 16 0xF115; ∃ t, cycle s = .next t ∧ t.dt ≠ s.dt) ∧
    (let s := (withRegs [(1, 5)]).withFetchWord 16 0xF118; ∃ t, cycle s = .next t ∧ t.st ≠ s.st) ∧
    (let s := State.setKey (State.reset.withFetchWord 16 0xF10A) 3 true;
      ∃ t, cycle s = .next t ∧ t.pendingKey ≠ s.pendingKey) :=
  ⟨⟨_, rfl, by decide⟩, ⟨_, rfl, by decide⟩, ⟨_, rfl, by decide⟩⟩

/-- OnlySixInstructionsWriteTheFlagUnnamed: a carry, and a named destination. -/
theorem witness_flag :
    (∃ t, exec (.addReg 0 1) (withRegs [(0, 255), (1, 1)]) = .next t ∧ t.reg 15 ≠ (withRegs [(0, 255), (1, 1)]).reg 15) ∧
    ∃ t, exec (.loadImm 15 3) State.reset = .next t ∧ t.reg 15 ≠ State.reset.reg 15 :=
  ⟨⟨_, rfl, by decide⟩, ⟨_, rfl, by decide⟩⟩

/-- OnlyRandomReadsTheRndInput. -/
theorem witness_not_random : ∀ x kk, Instr.loadImm 0 5 ≠ .random x kk := nofun

/-- EveryStepKeepsTheInvariant: the reset state meets it and takes a step. -/
theorem witness_invariant : State.reset.Inv ∧ step State.reset = .next State.reset.advance :=
  ⟨by unfold State.Inv; decide, rfl⟩

/-- JumpSetsPcOnly: a jump to its own address. -/
theorem witness_jump_self : State.reset.pc.toNat = (0x200 : Addr12).toNat := by decide

/-- CallPushesTheReturnAddress, CallThenReturnComesBack, ReturnPopsIntoPc, StackFaultsAtTheLimits: `sp` at 15, 1, 16, 0. -/
theorem witness_sp : ({ State.reset with sp := 15 } : State).sp.val < 16 ∧ 0 < ({ State.reset with sp := 1 } : State).sp.val ∧
    ({ State.reset with sp := 16 } : State).sp.val = 16 ∧ 0 < ({ State.reset with sp := 16 } : State).sp.val ∧
    State.reset.sp.val = 0 := by decide

/-- LogicIsBitwiseWithoutFlag, AddRegSumsAndCarries, SubtractionsWrapAndReportNoBorrow, ShiftsMoveOneBitAndReportIt: the
operands of their conditions. -/
theorem witness_registers : (3 : Nibble) = 3 ∧ (14 : Nibble) ≠ 15 := by decide

/-- RandomIsTheMaskedInput: a driven byte, an undriven input, a clear mask bit. -/
theorem witness_rnd : ({ State.reset with rndIn := some 0xB7 } : State).rndIn = some 0xB7 ∧ State.reset.rndIn = none ∧
    (0x0F : Byte).getLsbD 7 = false := by decide

/-- StoreBCDStoresThreeDigits, StoreRegsStoresVZeroToVx, LoadRegsLoadsVZeroToVx: the last base that fits. -/
theorem witness_transfers : (State.reset.setIndex 0xFFD).index.toNat + 2 ≤ 0xFFF ∧
    (State.reset.setIndex 0xFF0).index.toNat + (15 : Nibble).toNat ≤ 0xFFF ∧ (15 : Nibble) ≤ 15 := by decide

/-- OverrunningTransfersFault: the first base that does not, for each of its clauses. -/
theorem witness_overruns : ((2 : Nibble) ≠ 0 ∧ 0xFFF < (State.reset.setIndex 0xFFF).index.toNat + (2 : Nibble).toNat - 1) ∧
    0xFFF < (State.reset.setIndex 0xFFE).index.toNat + 2 ∧
    0xFFF < (State.reset.setIndex 0xFF1).index.toNat + (15 : Nibble).toNat := by decide

/-- StoreThenLoadRegsGivesThemBack. -/
theorem witness_store_load : (2 : Nibble) ≤ 15 ∧ (State.reset.setIndex 0xFF0).index.toNat + (15 : Nibble).toNat ≤ 0xFFF := by
  decide

/-- StoredBytesAreFetched: StoreRegs V1 at 0x200 with `I = 0x202` writes the next instruction. -/
theorem witness_stored_fetch : ∃ t, exec (.storeRegs 1) ((withRegs [(0, 0x12), (1, 0x34)]).setIndex 0x202) = .next t ∧
    (1 : Nibble) ≤ 1 ∧ (0 : Nibble).toNat + 1 = (1 : Nibble).toNat ∧
    t.pc.toNat = ((withRegs [(0, 0x12), (1, 0x34)]).setIndex 0x202).index.toNat + (0 : Nibble).toNat :=
  ⟨_, rfl, by decide, by decide, by decide⟩

/-- DrawTogglesExactlyTheSprite: `n = 0` with `I` out of range, the last base for `n = 5`, a 1 pixel and a 0 pixel, a
collision and none. -/
theorem witness_draw :
    (0 : Nibble) = 0 ∧ (State.reset.setIndex 0xFFB).index.toNat + (5 : Nibble).toNat - 1 ≤ 0xFFF ∧
    spritePixel (State.reset.setIndex 0x050) 1 2 5 3 4 ∧ ¬ spritePixel (State.reset.setIndex 0x050) 1 2 5 4 4 ∧
    (∃ cx cy, cx < 64 ∧ cy < 32 ∧ spritePixel (State.reset.setIndex 0x050) 1 2 5 cx cy ∧
      ({ State.reset.setIndex 0x050 with fb := State.reset.fb.set 0 1 } : State).cell (cy * 64 + cx) = true) ∧
    ¬ ∃ cx cy, cx < 64 ∧ cy < 32 ∧ spritePixel State.reset 1 2 0 cx cy ∧ State.reset.cell (cy * 64 + cx) = true := by
  refine ⟨rfl, by decide, by unfold spritePixel; decide, by unfold spritePixel; decide,
    ⟨0, 0, by decide, by decide, by unfold spritePixel; decide, by decide⟩, ?_⟩
  rintro ⟨cx, cy, -, -, ⟨-, ⟨h, h'⟩, -⟩, -⟩
  exact absurd h' (Nat.not_lt.mpr h)

/-- The state before the first of two draws, after it, and with the second anchor in other registers. -/
def beforeDraw : State := (withRegs [(1, 62), (2, 30)]).setIndex 0x050

/-- After the first draw. -/
def drawnOnce : State := stateOr State.reset (exec (.draw 1 2 5) beforeDraw)

/-- The second anchor, in registers of its own and unreduced. -/
def secondAnchor : State := (drawnOnce.setReg 3 126).setReg 4 62

/-- DrawTwiceRestoresTheScreen: all of its hypotheses, with a cell the first draw left at 1. -/
theorem witness_drawTwice :
    exec (.draw 1 2 5) beforeDraw = .next drawnOnce ∧ secondAnchor.fb = drawnOnce.fb ∧
    secondAnchor.index = beforeDraw.index ∧
    (secondAnchor.reg 3).toNat % 64 = (beforeDraw.reg 1).toNat % 64 ∧
    (secondAnchor.reg 4).toNat % 32 = (beforeDraw.reg 2).toNat % 32 ∧
    (∀ r, r < (5 : Nibble).toNat →
      secondAnchor.byteAt (beforeDraw.index.toNat + r) = beforeDraw.byteAt (beforeDraw.index.toNat + r)) ∧
    (∃ w, exec (.draw 3 4 5) secondAnchor = .next w) ∧
    spritePixel beforeDraw 1 2 5 63 30 ∧ drawnOnce.cell (30 * 64 + 63) = true :=
  ⟨rfl, rfl, by decide, by decide, by decide, by decide, ⟨_, rfl⟩, by unfold spritePixel; decide, by decide⟩

/-- KeySkipsReadTheKeypad and KeySkipsFaultAboveFifteen: 15 and 16. -/
theorem witness_keys : ((withRegs [(4, 15)]).reg 4).toNat < 16 ∧ 15 < ((withRegs [(4, 16)]).reg 4).toNat := by decide

/-- StepTimersDecrementsAndSignals, AudioIsOnForExactlySTSteps: counters at 1 and at 0. -/
theorem witness_timers : 0 < ({ State.reset with dt := 1, st := 1 } : State).dt.toNat ∧
    0 < ({ State.reset with dt := 1, st := 1 } : State).st.toNat ∧ State.reset.dt.toNat = 0 ∧ State.reset.st.toNat = 0 ∧
    0 < 1 := by decide

/-- LoadProgramWritesTheImageOnly: the longest image and the shortest that is refused. -/
theorem witness_images : (List.replicate 3584 (0xAA : Byte)).length ≤ 3584 ∧ 3584 < (List.replicate 3585 (0xAA : Byte)).length :=
  ⟨by rw [List.length_replicate], by rw [List.length_replicate]; decide⟩

/-- TimerWritersWriteOneTimer. -/
theorem witness_timer_value : (withRegs [(1, 5)]).reg 1 = 5 ∧
    (∃ t, exec (.fSetDelay 1) (withRegs [(1, 5)]) = .next t) ∧ ∃ t, exec (.fSetSound 1) (withRegs [(1, 5)]) = .next t :=
  ⟨by decide, ⟨_, rfl⟩, ⟨_, rfl⟩⟩

/-- FramebufferReadsEveryCell: the first and the last cell. -/
theorem witness_cells : ((0 < 64 ∧ 0 < 32) ∧ 0 * 64 + 0 = 0) ∧ (63 < 64 ∧ 31 < 32) ∧ 31 * 64 + 63 = 2047 := by decide

end Sys2Proof.Tests
end

section
/-!
The proofs about the decoder (30_encoding.md).
-/

namespace Sys2Proof

/-- Settles O1: the three words are fixed, one for each way `decode` picks an instruction (the exact low byte of family
0x0, the family alone for 0x1, the low nibble of family 0x8), so the decoder evaluates each. -/
theorem decodeGivesTheSourceExamples : Obligations.DecodeGivesTheSourceExamples := by
  unfold Obligations.DecodeGivesTheSourceExamples
  refine ⟨?clearScreen, ?jump, ?loadReg⟩
  case clearScreen => decide
  case jump => decide
  case loadReg => decide

end Sys2Proof
end

section
/-!
The proofs about control flow (41_control_flow.md): the four skips that compare a register with an immediate or with
another register. Each is one `State.skipIf` after the advance; what differs is the opcode and the condition.
-/

namespace Sys2Proof

/-! ### The words of the skips (30_encoding.md R74, R76) -/

/-- The selector of families 0x5 and 0x9 is the word's low nibble, which must be 0 (R76). -/
theorem decodeNZero_encodeXYN (f x y n : Nibble) (i : Instr) :
    decodeNZero (encodeXYN f x y n) i = if n = 0 then .defined i else .unknown (encodeXYN f x y n) := by
  unfold decodeNZero
  rw [fieldN_encodeXYN]
  split
  · next h => rw [if_pos (BitVec.eq_of_toNat_eq h)]
  · next h => rw [if_neg (fun h0 => h (by rw [h0]; rfl))]

theorem decode_encodeXKK_three (x : Nibble) (kk : Byte) :
    decode (encodeXKK 0x3 x kk) = .defined (.skipEqImm x kk) := by
  simp [decode, fieldFamily_encodeXKK, fieldX_encodeXKK, fieldKK_encodeXKK]

theorem decode_encodeXKK_four (x : Nibble) (kk : Byte) :
    decode (encodeXKK 0x4 x kk) = .defined (.skipNeImm x kk) := by
  simp [decode, fieldFamily_encodeXKK, fieldX_encodeXKK, fieldKK_encodeXKK]

theorem decode_encodeXYN_five (x y n : Nibble) :
    decode (encodeXYN 0x5 x y n) =
      if n = 0 then .defined (.skipEqReg x y) else .unknown (encodeXYN 0x5 x y n) := by
  simp [decode, fieldFamily_encodeXYN, fieldX_encodeXYN, fieldY_encodeXYN, decodeNZero_encodeXYN]

theorem decode_encodeXYN_nine (x y n : Nibble) :
    decode (encodeXYN 0x9 x y n) =
      if n = 0 then .defined (.skipNeReg x y) else .unknown (encodeXYN 0x9 x y n) := by
  simp [decode, fieldFamily_encodeXYN, fieldX_encodeXYN, fieldY_encodeXYN, decodeNZero_encodeXYN]

namespace Machine

/-! ### The meanings of the skips -/

theorem exec_skipEqImm (x : Nibble) (kk : Byte) (s : State) :
    exec (.skipEqImm x kk) s = .next (s.advance.skipIf (s.reg x == kk)) := rfl

theorem exec_skipNeImm (x : Nibble) (kk : Byte) (s : State) :
    exec (.skipNeImm x kk) s = .next (s.advance.skipIf (s.reg x != kk)) := rfl

theorem exec_skipEqReg (x y : Nibble) (s : State) :
    exec (.skipEqReg x y) s = .next (s.advance.skipIf (s.reg x == s.reg y)) := rfl

theorem exec_skipNeReg (x y : Nibble) (s : State) :
    exec (.skipNeReg x y) s = .next (s.advance.skipIf (s.reg x != s.reg y)) := rfl

/-- The advance and the further 2 of a taken skip are 4 together (R124). -/
theorem State.advance_skipIf_pc (s : State) (c : Bool) :
    (s.advance.skipIf c).pc = if c then s.pc + 4 else s.pc + 2 := by
  rw [State.skipIf_pc, State.advance_pc, BitVec.add_assoc]
  rfl

/-- A skip instruction changes `pc` only. -/
theorem State.advance_skipIf_frame (s : State) (c : Bool) : OnlyChanges (· = .pc) s (s.advance.skipIf c) :=
  s.advance_frame.trans (s.advance.skipIf_frame c)

/-- An instruction that skips when two bytes are equal. -/
theorem skip_of_eq {r : Result} {s : State} {a b : Byte} (h : r = .next (s.advance.skipIf (a == b))) :
    ∃ t, r = .next t ∧ t.pc = (if a.toNat = b.toNat then s.pc + 4 else s.pc + 2) ∧ OnlyChanges (· = .pc) s t := by
  refine ⟨_, h, ?_, s.advance_skipIf_frame _⟩
  simp only [State.advance_skipIf_pc, beq_iff_eq, BitVec.toNat_inj]

/-- An instruction that skips when two bytes differ. -/
theorem skip_of_ne {r : Result} {s : State} {a b : Byte} (h : r = .next (s.advance.skipIf (a != b))) :
    ∃ t, r = .next t ∧ t.pc = (if a.toNat = b.toNat then s.pc + 2 else s.pc + 4) ∧ OnlyChanges (· = .pc) s t := by
  refine ⟨_, h, ?_, s.advance_skipIf_frame _⟩
  simp only [State.advance_skipIf_pc, bne_iff_ne, ne_eq, ite_not, BitVec.toNat_inj]

end Machine

open Machine

/-- Settles O21: the words are those of `encodeXKK`, and each meaning is one skip on the comparison of `V[x]` and
`kk`. -/
theorem skipsOnImmediateCompare : Obligations.SkipsOnImmediateCompare := by
  unfold Obligations.SkipsOnImmediateCompare
  intro x kk s
  exact ⟨decode_encodeXKK_three x kk, decode_encodeXKK_four x kk,
    skip_of_eq (exec_skipEqImm x kk s), skip_of_ne (exec_skipNeImm x kk s)⟩

/-- Settles O22: the words are those of `encodeXYN`, and each meaning is one skip on the comparison of `V[x]` and
`V[y]`. -/
theorem skipsOnRegisterCompare : Obligations.SkipsOnRegisterCompare := by
  unfold Obligations.SkipsOnRegisterCompare
  intro x y s
  exact ⟨decode_encodeXYN_five x y, decode_encodeXYN_nine x y,
    skip_of_eq (exec_skipEqReg x y s), skip_of_ne (exec_skipNeReg x y s)⟩

end Sys2Proof
end

section
/-!
The proofs about loads and arithmetic (42_alu.md): the instructions that write one register and no flag. Each is one
`State.setReg` after the advance; what differs is the opcode and the byte written.
-/

namespace Sys2Proof

/-! ### The words of the loads and of AddImm (30_encoding.md R74, R77) -/

theorem decode_encodeXKK_six (x : Nibble) (kk : Byte) :
    decode (encodeXKK 0x6 x kk) = .defined (.loadImm x kk) := by
  simp [decode, fieldFamily_encodeXKK, fieldX_encodeXKK, fieldKK_encodeXKK]

theorem decode_encodeXKK_seven (x : Nibble) (kk : Byte) :
    decode (encodeXKK 0x7 x kk) = .defined (.addImm x kk) := by
  simp [decode, fieldFamily_encodeXKK, fieldX_encodeXKK, fieldKK_encodeXKK]

/-- A word of family 0x8 is left to the selector of that family, its low nibble (R77). -/
theorem decode_encodeXYN_eight (x y n : Nibble) :
    decode (encodeXYN 0x8 x y n) = decodeFamily8 (encodeXYN 0x8 x y n) := by
  simp [decode, fieldFamily_encodeXYN]

theorem decode_encodeXYN_eight_zero (x y : Nibble) :
    decode (encodeXYN 0x8 x y 0x0) = .defined (.loadReg x y) := by
  rw [decode_encodeXYN_eight]
  simp [decodeFamily8, fieldN_encodeXYN, fieldX_encodeXYN, fieldY_encodeXYN]

namespace Machine

/-! ### The meanings of the loads and of AddImm -/

theorem exec_loadImm (x : Nibble) (kk : Byte) (s : State) :
    exec (.loadImm x kk) s = .next (s.advance.setReg x kk) := rfl

theorem exec_addImm (x : Nibble) (kk : Byte) (s : State) :
    exec (.addImm x kk) s = .next (s.advance.setReg x (s.reg x + kk)) := rfl

theorem exec_loadReg (x y : Nibble) (s : State) :
    exec (.loadReg x y) s = .next (s.advance.setReg x (s.reg y)) := rfl

/-- An instruction that writes one register changes that register and `pc` only. -/
theorem State.advance_setReg_frame (s : State) (x : Nibble) (b : Byte) :
    OnlyChanges (fun p => p = .reg x ∨ p = .pc) s (s.advance.setReg x b) :=
  (s.advance_frame.mono fun _ h => .inr h).trans ((s.advance.setReg_frame x b).mono fun _ h => .inl h)

/-- An instruction that writes `b` to `V[x]` and no flag. -/
theorem writesReg_of_setReg {r : Result} {s : State} {x : Nibble} {b : Byte}
    (h : r = .next (s.advance.setReg x b)) :
    ∃ t, r = .next t ∧ t.reg x = b ∧ t.pc = s.pc + 2 ∧ OnlyChanges (fun p => p = .reg x ∨ p = .pc) s t := by
  have hreg : (s.advance.setReg x b).reg x = b := by rw [State.reg_setReg, if_pos rfl]
  exact ⟨_, h, hreg, s.advance_pc, s.advance_setReg_frame x b⟩

end Machine

open Machine

/-- Settles O27: the word is that of `encodeXKK`, and the meaning is one register write, of `kk`. -/
theorem loadImmWritesTheImmediate : Obligations.LoadImmWritesTheImmediate := by
  unfold Obligations.LoadImmWritesTheImmediate
  intro x kk s
  exact ⟨decode_encodeXKK_six x kk, writesReg_of_setReg (exec_loadImm x kk s)⟩

/-- Settles O28: the word is that of `encodeXKK`, and the meaning is one register write, of a sum of bytes, which wraps
modulo 256. -/
theorem addImmWrapsWithoutFlag : Obligations.AddImmWrapsWithoutFlag := by
  unfold Obligations.AddImmWrapsWithoutFlag
  intro x kk s
  obtain ⟨t, hnext, hreg, hpc, hframe⟩ := writesReg_of_setReg (exec_addImm x kk s)
  have hsum : (t.reg x).toNat = ((s.reg x).toNat + kk.toNat) % 256 := by rw [hreg, BitVec.toNat_add]
  exact ⟨decode_encodeXKK_seven x kk, t, hnext, hsum, hpc, hframe⟩

/-- Settles O29: the word is that of `encodeXYN` with the selector 0, and the meaning is one register write, of the old
`V[y]`. -/
theorem loadRegCopiesVy : Obligations.LoadRegCopiesVy := by
  unfold Obligations.LoadRegCopiesVy
  intro x y s
  exact ⟨decode_encodeXYN_eight_zero x y, writesReg_of_setReg (exec_loadReg x y s)⟩

end Sys2Proof
end

section
/-!
The proofs about the index register (43_index_memory.md): LoadIndex, one `State.setIndex` after the advance.
-/

namespace Sys2Proof

/-! ### The word of LoadIndex (30_encoding.md R74) -/

theorem decode_encodeNNN_ten (nnn : Addr12) : decode (encodeNNN 0xA nnn) = .defined (.loadIndex nnn) := by
  simp [decode, fieldFamily_encodeNNN, fieldNNN_encodeNNN]

namespace Machine

/-! ### The meaning of LoadIndex -/

theorem exec_loadIndex (nnn : Addr12) (s : State) :
    exec (.loadIndex nnn) s = .next (s.advance.setIndex (zextAddr nnn)) := rfl

/-- An instruction that writes `I` changes `I` and `pc` only. -/
theorem State.advance_setIndex_frame (s : State) (w : Word) :
    OnlyChanges (fun p => p = .index ∨ p = .pc) s (s.advance.setIndex w) :=
  (s.advance_frame.mono fun _ h => .inr h).trans ((s.advance.setIndex_frame w).mono fun _ h => .inl h)

/-- An instruction that writes `w` to `I`. -/
theorem writesIndex_of_setIndex {r : Result} {s : State} {w : Word} (h : r = .next (s.advance.setIndex w)) :
    ∃ t, r = .next t ∧ t.index = w ∧ t.pc = s.pc + 2 ∧ OnlyChanges (fun p => p = .index ∨ p = .pc) s t :=
  ⟨_, h, s.advance.setIndex_index w, s.advance_pc, s.advance_setIndex_frame w⟩

end Machine

open Machine

/-- Settles O35: the word is that of `encodeNNN`, and the meaning is one write of `I`, of the zero-extended address,
whose upper four bits are 0. -/
theorem loadIndexWritesI : Obligations.LoadIndexWritesI := by
  unfold Obligations.LoadIndexWritesI
  intro nnn s
  obtain ⟨t, hnext, hindex, hpc, hframe⟩ := writesIndex_of_setIndex (exec_loadIndex nnn s)
  have hvalue : t.index.toNat = nnn.toNat := by rw [hindex, zextAddr_toNat]
  exact ⟨decode_encodeNNN_ten nnn, t, hnext, hvalue, hpc, hframe⟩

end Sys2Proof
end

section
/-!
The proofs about the host's operations (47_host_operations.md): what `framebuffer()` answers.
-/

namespace Sys2Proof
namespace Machine

/-! ### What `framebuffer()` answers (R204) -/

/-- `framebuffer()` is a pure read: it answers the grid and leaves the state. -/
theorem runCommand_framebuffer (s : State) : runCommand .framebuffer s = (s, .grid s.grid) := rfl

@[simp] theorem State.grid_length (s : State) : s.grid.length = 2048 := by
  rw [State.grid, List.length_map, List.length_range]

/-- Place `k` of the grid holds cell `k`. -/
theorem State.grid_getElem? (s : State) {k : Nat} (hk : k < 2048) : s.grid[k]? = some (s.cell k) := by
  rw [State.grid, List.getElem?_map, List.getElem?_range hk, Option.map_some]

end Machine

open Machine

/-- Settles O57: the command answers the grid, whose place `k` holds cell `k` for each of the 2048 places, and a column
below 64 with a row below 32 names one of them. -/
theorem framebufferReadsEveryCell : Obligations.FramebufferReadsEveryCell := by
  unfold Obligations.FramebufferReadsEveryCell
  intro s
  refine ⟨s.grid, runCommand_framebuffer s, s.grid_length, ?cells⟩
  case cells =>
    intro cx cy hcx hcy
    have inside : cy * 64 + cx < 2048 := by omega
    exact s.grid_getElem? inside

end Sys2Proof
end

section
/-!
The proofs about exceptions and timing (60_exceptions.md): what `step_timers` does to the two counters and the signal.
-/

namespace Sys2Proof
namespace Machine

/-! ### What `step_timers` does (R233) -/

theorem runCommand_stepTimers (s : State) : runCommand .stepTimers s = (s.stepTimers, .done) := rfl

/-- The counter rule of `step_timers`, in natural numbers: one lower, floored at 0. -/
theorem toNat_decrementAboveZero (b : Byte) : (if b = 0 then b else b - 1).toNat = b.toNat - 1 := by
  split
  · next hzero => rw [hzero]; rfl
  · next hpos => bv_omega

theorem State.stepTimers_dt_toNat (s : State) : s.stepTimers.dt.toNat = s.dt.toNat - 1 :=
  toNat_decrementAboveZero s.dt

theorem State.stepTimers_st_toNat (s : State) : s.stepTimers.st.toNat = s.st.toNat - 1 :=
  toNat_decrementAboveZero s.st

/-- The signal looks at the `ST` from before the decrement. -/
theorem State.stepTimers_audioActive_eq_decide_pos (s : State) :
    s.stepTimers.audioActive = decide (0 < s.st.toNat) := by
  have nonzero_iff_pos : s.st ≠ 0 ↔ 0 < s.st.toNat := by bv_omega
  rw [State.stepTimers_audioActive, decide_eq_decide]
  exact nonzero_iff_pos

theorem State.stepTimers_frame (s : State) :
    OnlyChanges (fun p => p = .delayTimer ∨ p = .soundTimer ∨ p = .audio) s s.stepTimers := by
  intro p hp
  cases p with
  | delayTimer => exact absurd (.inl rfl) hp
  | soundTimer => exact absurd (.inr (.inl rfl)) hp
  | audio => exact absurd (.inr (.inr rfl)) hp
  | _ => rfl

end Machine

open Machine

/-- Settles O52: each counter becomes its truncated predecessor, and the signal is the test that `ST` was above 0. -/
theorem stepTimersDecrementsAndSignals : Obligations.StepTimersDecrementsAndSignals := by
  unfold Obligations.StepTimersDecrementsAndSignals
  intro s
  have hdt := s.stepTimers_dt_toNat
  have hst := s.stepTimers_st_toNat
  have haudio := s.stepTimers_audioActive_eq_decide_pos
  refine ⟨s.stepTimers, runCommand_stepTimers s, ?dtAbove, ?dtZero, ?stAbove, ?stZero, s.stepTimers_frame⟩
  case dtAbove => omega
  case dtZero => omega
  case stAbove => exact fun hpos => ⟨by omega, haudio.trans (decide_eq_true hpos)⟩
  case stZero => exact fun hzero => ⟨by omega, haudio.trans (decide_eq_false (by omega))⟩

end Sys2Proof
end

section
/-!
The proofs that decoder, encoder and opcode map agree (30_encoding.md). The word of every instruction decodes to it; the
decoder's branches say which word an answer came from; and a word that matches a row is the word of an instruction of that
row, up to the nibble 11:8 of format OP.
-/

namespace Sys2Proof

/-! ### The words of the remaining instructions (R74 to R79) -/

theorem decode_encodeNNN_one (nnn : Addr12) : decode (encodeNNN 0x1 nnn) = .defined (.jump nnn) := by
  simp [decode, fieldFamily_encodeNNN, fieldNNN_encodeNNN]

theorem decode_encodeNNN_two (nnn : Addr12) : decode (encodeNNN 0x2 nnn) = .defined (.call nnn) := by
  simp [decode, fieldFamily_encodeNNN, fieldNNN_encodeNNN]

theorem decode_encodeNNN_eleven (nnn : Addr12) : decode (encodeNNN 0xB nnn) = .defined (.jumpOffset nnn) := by
  simp [decode, fieldFamily_encodeNNN, fieldNNN_encodeNNN]

theorem decode_encodeXKK_twelve (x : Nibble) (kk : Byte) :
    decode (encodeXKK 0xC x kk) = .defined (.random x kk) := by
  simp [decode, fieldFamily_encodeXKK, fieldX_encodeXKK, fieldKK_encodeXKK]

theorem decode_encodeXYN_thirteen (x y n : Nibble) : decode (encodeXYN 0xD x y n) = .defined (.draw x y n) := by
  simp [decode, fieldFamily_encodeXYN, fieldX_encodeXYN, fieldY_encodeXYN, fieldN_encodeXYN]

/-- A word of family 0x0 is left to the selector of that family, its low byte (R75). -/
theorem decode_encodeXKK_zero (z : Nibble) (kk : Byte) :
    decode (encodeXKK 0x0 z kk) = decodeFamily0 (encodeXKK 0x0 z kk) := by
  simp [decode, fieldFamily_encodeXKK]

/-- The nibble 11:8 of ClearScreen does not matter (D17). -/
theorem decode_encodeXKK_zero_E0 (z : Nibble) : decode (encodeXKK 0x0 z 0xE0) = .defined .clearScreen := by
  rw [decode_encodeXKK_zero]
  simp [decodeFamily0, fieldKK_encodeXKK]

/-- The nibble 11:8 of Return does not matter (D17). -/
theorem decode_encodeXKK_zero_EE (z : Nibble) : decode (encodeXKK 0x0 z 0xEE) = .defined .ret := by
  rw [decode_encodeXKK_zero]
  simp [decodeFamily0, fieldKK_encodeXKK]

/-- A word of family 0xE is left to the selector of that family, its low byte (R78). -/
theorem decode_encodeXKK_fourteen (x : Nibble) (kk : Byte) :
    decode (encodeXKK 0xE x kk) = decodeFamilyE (encodeXKK 0xE x kk) := by
  simp [decode, fieldFamily_encodeXKK]

/-- A word of family 0xF is left to the selector of that family, its low byte (R79). -/
theorem decode_encodeXKK_fifteen (x : Nibble) (kk : Byte) :
    decode (encodeXKK 0xF x kk) = decodeFamilyF (encodeXKK 0xF x kk) := by
  simp [decode, fieldFamily_encodeXKK]

/-! ### An encoded instruction decodes to itself -/

/-- The word of every instruction decodes to that instruction. -/
theorem decode_encode (i : Instr) : decode (encode i) = .defined i := by
  cases i with
  | clearScreen => exact decode_encodeXKK_zero_E0 0
  | ret => exact decode_encodeXKK_zero_EE 0
  | jump nnn => exact decode_encodeNNN_one nnn
  | call nnn => exact decode_encodeNNN_two nnn
  | skipEqImm x kk => exact decode_encodeXKK_three x kk
  | skipNeImm x kk => exact decode_encodeXKK_four x kk
  | skipEqReg x y => exact decode_encodeXYN_five x y 0
  | loadImm x kk => exact decode_encodeXKK_six x kk
  | addImm x kk => exact decode_encodeXKK_seven x kk
  | loadReg x y => exact decode_encodeXYN_eight_zero x y
  | skipNeReg x y => exact decode_encodeXYN_nine x y 0
  | loadIndex nnn => exact decode_encodeNNN_ten nnn
  | jumpOffset nnn => exact decode_encodeNNN_eleven nnn
  | random x kk => exact decode_encodeXKK_twelve x kk
  | draw x y n => exact decode_encodeXYN_thirteen x y n
  | skipKeyPressed | skipKeyNotPressed =>
    rw [encode, decode_encodeXKK_fourteen]
    simp [decodeFamilyE, fieldKK_encodeXKK, fieldX_encodeXKK]
  | orReg | andReg | xorReg | addReg | sub | shr | subN | shl =>
    rw [encode, decode_encodeXYN_eight]
    simp [decodeFamily8, fieldN_encodeXYN, fieldX_encodeXYN, fieldY_encodeXYN]
  | loadDelay | waitKey | fSetDelay | fSetSound | addIndex | loadFont | storeBCD | storeRegs | loadRegs =>
    rw [encode, decode_encodeXKK_fifteen]
    simp [decodeFamilyF, fieldKK_encodeXKK, fieldX_encodeXKK]

/-! ### A word put together again when its family is known (R71) -/

theorem encodeNNN_of_family {w : Word} {f : Nibble} (hf : fieldFamily w = f) : encodeNNN f (fieldNNN w) = w := by
  rw [← hf, encodeNNN_fields]

theorem encodeXKK_of_family {w : Word} {f : Nibble} (hf : fieldFamily w = f) :
    encodeXKK f (fieldX w) (fieldKK w) = w := by
  rw [← hf, encodeXKK_fields]

theorem encodeXYN_of_family {w : Word} {f : Nibble} (hf : fieldFamily w = f) :
    encodeXYN f (fieldX w) (fieldY w) (fieldN w) = w := by
  rw [← hf, encodeXYN_fields]

/-! ### The word an answer of the decoder came from -/

theorem encode_of_decodeFamily0 {w : Word} {i : Instr} (h : decodeFamily0 w = .defined i) :
    (i = .clearScreen ∨ i = .ret) ∧ encode i = encodeXKK 0x0 0x0 (fieldKK w) := by
  unfold decodeFamily0 at h
  split at h
  · next hkk => cases h; exact ⟨.inl rfl, congrArg (encodeXKK 0x0 0x0) (BitVec.eq_of_toNat_eq hkk.symm)⟩
  · next hkk => cases h; exact ⟨.inr rfl, congrArg (encodeXKK 0x0 0x0) (BitVec.eq_of_toNat_eq hkk.symm)⟩
  · cases h

theorem defined_of_decodeNZero {w : Word} {i j : Instr} (h : decodeNZero w j = .defined i) :
    i = j ∧ fieldN w = 0x0 := by
  unfold decodeNZero at h
  split at h
  · next hn => cases h; exact ⟨rfl, BitVec.eq_of_toNat_eq hn⟩
  · cases h

theorem encode_of_decodeFamily8 {w : Word} {i : Instr} (h : decodeFamily8 w = .defined i) :
    encode i = encodeXYN 0x8 (fieldX w) (fieldY w) (fieldN w) := by
  unfold decodeFamily8 at h
  split at h <;> cases h
  all_goals next hn => exact congrArg (encodeXYN 0x8 _ _) (BitVec.eq_of_toNat_eq hn.symm)

theorem encode_of_decodeFamilyE {w : Word} {i : Instr} (h : decodeFamilyE w = .defined i) :
    encode i = encodeXKK 0xE (fieldX w) (fieldKK w) := by
  unfold decodeFamilyE at h
  split at h <;> cases h
  all_goals next hkk => exact congrArg (encodeXKK 0xE _) (BitVec.eq_of_toNat_eq hkk.symm)

theorem encode_of_decodeFamilyF {w : Word} {i : Instr} (h : decodeFamilyF w = .defined i) :
    encode i = encodeXKK 0xF (fieldX w) (fieldKK w) := by
  unfold decodeFamilyF at h
  split at h <;> cases h
  all_goals next hkk => exact congrArg (encodeXKK 0xF _) (BitVec.eq_of_toNat_eq hkk.symm)

/-! ### What the three masks of the opcode map keep of a word (R83) -/

theorem and_F000 (w : Word) : w &&& 0xF000 = encodeNNN (fieldFamily w) 0x0 := by
  conv_lhs => rw [← encodeNNN_fields w]
  exact Laws.encodeNNN_family _ _

theorem and_F00F (w : Word) : w &&& 0xF00F = encodeXYN (fieldFamily w) 0x0 0x0 (fieldN w) := by
  conv_lhs => rw [← encodeXYN_fields w]
  exact Laws.encodeXYN_lowNibble _ _ _ _

theorem and_F0FF (w : Word) : w &&& 0xF0FF = encodeXKK (fieldFamily w) 0x0 (fieldKK w) := by
  conv_lhs => rw [← encodeXKK_fields w]
  exact Laws.encodeXKK_lowByte _ _ _

/-- A word whose family is given by its bits under mask 0xF000. -/
theorem fieldFamily_of_and {w : Word} {f : Nibble} (h : w &&& 0xF000 = encodeNNN f 0x0) : fieldFamily w = f := by
  have := congrArg fieldFamily ((and_F000 w).symm.trans h)
  simpa only [fieldFamily_encodeNNN] using this

/-- A word whose family and low nibble are given by its bits under mask 0xF00F. -/
theorem eq_encodeXYN_of_and {w : Word} {f n : Nibble} (h : w &&& 0xF00F = encodeXYN f 0x0 0x0 n) :
    w = encodeXYN f (fieldX w) (fieldY w) n := by
  have hf := congrArg fieldFamily ((and_F00F w).symm.trans h)
  have hn := congrArg fieldN ((and_F00F w).symm.trans h)
  rw [fieldFamily_encodeXYN, fieldFamily_encodeXYN] at hf
  rw [fieldN_encodeXYN, fieldN_encodeXYN] at hn
  rw [← hf, ← hn, encodeXYN_fields]

/-- A word whose family and low byte are given by its bits under mask 0xF0FF. -/
theorem eq_encodeXKK_of_and {w : Word} {f : Nibble} {kk : Byte} (h : w &&& 0xF0FF = encodeXKK f 0x0 kk) :
    w = encodeXKK f (fieldX w) kk := by
  have hf := congrArg fieldFamily ((and_F0FF w).symm.trans h)
  have hkk := congrArg fieldKK ((and_F0FF w).symm.trans h)
  rw [fieldFamily_encodeXKK, fieldFamily_encodeXKK] at hf
  rw [fieldKK_encodeXKK, fieldKK_encodeXKK] at hkk
  rw [← hf, ← hkk, encodeXKK_fields]

/-- The words of families 0x5 and 0x9: the low nibble is 0. -/
theorem encodeXYN_of_decodeNZero {w : Word} {f : Nibble} {i j : Instr} (hf : fieldFamily w = f)
    (hj : encode j = encodeXYN f (fieldX w) (fieldY w) 0x0) (h : decodeNZero w j = .defined i) : encode i = w := by
  obtain ⟨rfl, hn⟩ := defined_of_decodeNZero h
  rw [hj, ← hn, encodeXYN_of_family hf]

/-- The word an instruction was decoded from: its own, but for the nibble that format OP ignores. -/
theorem encode_of_decode {w : Word} {i : Instr} (h : decode w = .defined i) :
    encode i = w ∨ ((i = .clearScreen ∨ i = .ret) ∧ encode i = w &&& 0xF0FF) := by
  have family {f : Nibble} (hf : (fieldFamily w).toNat = f.toNat) : fieldFamily w = f := BitVec.eq_of_toNat_eq hf
  unfold decode at h
  split at h
  case h_1 hf =>
    obtain ⟨hi, hword⟩ := encode_of_decodeFamily0 h
    exact .inr ⟨hi, by rw [hword, and_F0FF, family (f := 0x0) hf]⟩
  case h_2 hf | h_3 hf | h_11 hf | h_12 hf => cases h; exact .inl (encodeNNN_of_family (family hf))
  case h_4 hf | h_5 hf | h_7 hf | h_8 hf | h_13 hf => cases h; exact .inl (encodeXKK_of_family (family hf))
  case h_6 hf => exact .inl (encodeXYN_of_decodeNZero (f := 0x5) (family hf) rfl h)
  case h_10 hf => exact .inl (encodeXYN_of_decodeNZero (f := 0x9) (family hf) rfl h)
  case h_9 hf => exact .inl ((encode_of_decodeFamily8 h).trans (encodeXYN_of_family (family hf)))
  case h_14 hf => cases h; exact .inl (encodeXYN_of_family (family hf))
  case h_15 hf => exact .inl ((encode_of_decodeFamilyE h).trans (encodeXKK_of_family (family hf)))
  case h_16 =>
    have hf : (fieldFamily w).toNat = 15 := by
      have := (fieldFamily w).isLt
      grind
    exact .inl ((encode_of_decodeFamilyF h).trans (encodeXKK_of_family (family hf)))

/-- An Unknown carries the word it was decoded from (R80). -/
theorem decode_unknown {w o : Word} (h : decode w = .unknown o) : o = w := by
  unfold decode at h
  split at h
  case h_1 => unfold decodeFamily0 at h; split at h <;> cases h; rfl
  case h_6 | h_10 => unfold decodeNZero at h; split at h <;> cases h; rfl
  case h_9 => unfold decodeFamily8 at h; split at h <;> cases h; rfl
  case h_15 => unfold decodeFamilyE at h; split at h <;> cases h; rfl
  case h_16 => unfold decodeFamilyF at h; split at h <;> cases h; rfl
  all_goals cases h

/-! ### The rows of the opcode map (R84) -/

/-- The word of every instruction lies in the row that bears the instruction's number. -/
theorem encodeRow (i : Instr) : Laws.EncodeRow.Statement i := by
  cases i with
  | clearScreen => exact Laws.EncodeRow.clearScreen
  | ret => exact Laws.EncodeRow.ret
  | jump nnn => exact Laws.EncodeRow.jump nnn
  | call nnn => exact Laws.EncodeRow.call nnn
  | skipEqImm x kk => exact Laws.EncodeRow.skipEqImm x kk
  | skipNeImm x kk => exact Laws.EncodeRow.skipNeImm x kk
  | skipEqReg x y => exact Laws.EncodeRow.skipEqReg x y
  | loadImm x kk => exact Laws.EncodeRow.loadImm x kk
  | addImm x kk => exact Laws.EncodeRow.addImm x kk
  | loadReg x y => exact Laws.EncodeRow.loadReg x y
  | orReg x y => exact Laws.EncodeRow.orReg x y
  | andReg x y => exact Laws.EncodeRow.andReg x y
  | xorReg x y => exact Laws.EncodeRow.xorReg x y
  | addReg x y => exact Laws.EncodeRow.addReg x y
  | sub x y => exact Laws.EncodeRow.sub x y
  | shr x y => exact Laws.EncodeRow.shr x y
  | subN x y => exact Laws.EncodeRow.subN x y
  | shl x y => exact Laws.EncodeRow.shl x y
  | skipNeReg x y => exact Laws.EncodeRow.skipNeReg x y
  | loadIndex nnn => exact Laws.EncodeRow.loadIndex nnn
  | jumpOffset nnn => exact Laws.EncodeRow.jumpOffset nnn
  | random x kk => exact Laws.EncodeRow.random x kk
  | draw x y n => exact Laws.EncodeRow.draw x y n
  | skipKeyPressed x => exact Laws.EncodeRow.skipKeyPressed x
  | skipKeyNotPressed x => exact Laws.EncodeRow.skipKeyNotPressed x
  | loadDelay x => exact Laws.EncodeRow.loadDelay x
  | waitKey x => exact Laws.EncodeRow.waitKey x
  | fSetDelay x => exact Laws.EncodeRow.fSetDelay x
  | fSetSound x => exact Laws.EncodeRow.fSetSound x
  | addIndex x => exact Laws.EncodeRow.addIndex x
  | loadFont x => exact Laws.EncodeRow.loadFont x
  | storeBCD x => exact Laws.EncodeRow.storeBCD x
  | storeRegs x => exact Laws.EncodeRow.storeRegs x
  | loadRegs x => exact Laws.EncodeRow.loadRegs x

theorem inOpcodeMap_iff {w : Word} : inOpcodeMap w = true ↔ ∃ r ∈ opcodeRows, r.matchesWord w = true :=
  List.any_eq_true

/-- A word that decodes to an instruction matches a row: its word's row, and for format OP the row whose mask leaves the
ignored nibble out. -/
theorem inOpcodeMap_of_decode {w : Word} {i : Instr} (h : decode w = .defined i) : inOpcodeMap w = true := by
  rw [inOpcodeMap_iff]
  rcases encode_of_decode h with hword | ⟨rfl | rfl, hword⟩
  · obtain ⟨r, hr, -, hmatch⟩ := encodeRow i
    exact ⟨r, hr, hword ▸ hmatch⟩
  · exact ⟨⟨1, 0x00E0, 0xF0FF⟩, by decide, beq_iff_eq.mpr hword.symm⟩
  · exact ⟨⟨2, 0x00EE, 0xF0FF⟩, by decide, beq_iff_eq.mpr hword.symm⟩

/-- Every word that matches a row decodes to an instruction with the row's number. -/
def OpcodeRow.Decodes (r : OpcodeRow) : Prop :=
  ∀ w, r.matchesWord w = true → ∃ i, decode w = .defined i ∧ rowNumber i = r.number

/-- A row that tests the family only. -/
theorem OpcodeRow.Decodes.ofFamily {number : Nat} (f : Nibble) (instr : Word → Instr)
    (hencode : ∀ w, fieldFamily w = f → encode (instr w) = w) (hnumber : ∀ w, rowNumber (instr w) = number) :
    OpcodeRow.Decodes ⟨number, encodeNNN f 0x0, 0xF000⟩ := by
  intro w hmatch
  have hdecode := decode_encode (instr w)
  rw [hencode w (fieldFamily_of_and (beq_iff_eq.mp hmatch))] at hdecode
  exact ⟨instr w, hdecode, hnumber w⟩

/-- A row that tests the family and the low nibble. -/
theorem OpcodeRow.Decodes.ofLowNibble {number : Nat} (f n : Nibble) (instr : Nibble → Nibble → Instr)
    (hencode : ∀ x y, encode (instr x y) = encodeXYN f x y n) (hnumber : ∀ x y, rowNumber (instr x y) = number) :
    OpcodeRow.Decodes ⟨number, encodeXYN f 0x0 0x0 n, 0xF00F⟩ := by
  intro w hmatch
  rw [eq_encodeXYN_of_and (beq_iff_eq.mp hmatch), ← hencode]
  exact ⟨_, decode_encode _, hnumber _ _⟩

/-- A row that tests the family and the low byte. -/
theorem OpcodeRow.Decodes.ofLowByte {number : Nat} (f : Nibble) (kk : Byte) (instr : Nibble → Instr)
    (hdecode : ∀ x, decode (encodeXKK f x kk) = .defined (instr x)) (hnumber : ∀ x, rowNumber (instr x) = number) :
    OpcodeRow.Decodes ⟨number, encodeXKK f 0x0 kk, 0xF0FF⟩ := by
  intro w hmatch
  rw [eq_encodeXKK_of_and (beq_iff_eq.mp hmatch)]
  exact ⟨_, hdecode _, hnumber _⟩

theorem opcodeRows_decode : ∀ r ∈ opcodeRows, r.Decodes := by
  simp only [opcodeRows, List.forall_mem_cons]
  refine ⟨.ofLowByte 0x0 0xE0 (fun _ => .clearScreen) decode_encodeXKK_zero_E0 fun _ => rfl,
    .ofLowByte 0x0 0xEE (fun _ => .ret) decode_encodeXKK_zero_EE fun _ => rfl,
    .ofFamily 0x1 (fun w => .jump (fieldNNN w)) (fun _ => encodeNNN_of_family) fun _ => rfl,
    .ofFamily 0x2 (fun w => .call (fieldNNN w)) (fun _ => encodeNNN_of_family) fun _ => rfl,
    .ofFamily 0x3 (fun w => .skipEqImm (fieldX w) (fieldKK w)) (fun _ => encodeXKK_of_family) fun _ => rfl,
    .ofFamily 0x4 (fun w => .skipNeImm (fieldX w) (fieldKK w)) (fun _ => encodeXKK_of_family) fun _ => rfl,
    .ofLowNibble 0x5 0x0 .skipEqReg (fun _ _ => rfl) fun _ _ => rfl,
    .ofFamily 0x6 (fun w => .loadImm (fieldX w) (fieldKK w)) (fun _ => encodeXKK_of_family) fun _ => rfl,
    .ofFamily 0x7 (fun w => .addImm (fieldX w) (fieldKK w)) (fun _ => encodeXKK_of_family) fun _ => rfl,
    .ofLowNibble 0x8 0x0 .loadReg (fun _ _ => rfl) fun _ _ => rfl,
    .ofLowNibble 0x8 0x1 .orReg (fun _ _ => rfl) fun _ _ => rfl,
    .ofLowNibble 0x8 0x2 .andReg (fun _ _ => rfl) fun _ _ => rfl,
    .ofLowNibble 0x8 0x3 .xorReg (fun _ _ => rfl) fun _ _ => rfl,
    .ofLowNibble 0x8 0x4 .addReg (fun _ _ => rfl) fun _ _ => rfl,
    .ofLowNibble 0x8 0x5 .sub (fun _ _ => rfl) fun _ _ => rfl,
    .ofLowNibble 0x8 0x6 .shr (fun _ _ => rfl) fun _ _ => rfl,
    .ofLowNibble 0x8 0x7 .subN (fun _ _ => rfl) fun _ _ => rfl,
    .ofLowNibble 0x8 0xE .shl (fun _ _ => rfl) fun _ _ => rfl,
    .ofLowNibble 0x9 0x0 .skipNeReg (fun _ _ => rfl) fun _ _ => rfl,
    .ofFamily 0xA (fun w => .loadIndex (fieldNNN w)) (fun _ => encodeNNN_of_family) fun _ => rfl,
    .ofFamily 0xB (fun w => .jumpOffset (fieldNNN w)) (fun _ => encodeNNN_of_family) fun _ => rfl,
    .ofFamily 0xC (fun w => .random (fieldX w) (fieldKK w)) (fun _ => encodeXKK_of_family) fun _ => rfl,
    .ofFamily 0xD (fun w => .draw (fieldX w) (fieldY w) (fieldN w)) (fun _ => encodeXYN_of_family) fun _ => rfl,
    .ofLowByte 0xE 0x9E .skipKeyPressed (fun x => decode_encode (.skipKeyPressed x)) fun _ => rfl,
    .ofLowByte 0xE 0xA1 .skipKeyNotPressed (fun x => decode_encode (.skipKeyNotPressed x)) fun _ => rfl,
    .ofLowByte 0xF 0x07 .loadDelay (fun x => decode_encode (.loadDelay x)) fun _ => rfl,
    .ofLowByte 0xF 0x0A .waitKey (fun x => decode_encode (.waitKey x)) fun _ => rfl,
    .ofLowByte 0xF 0x15 .fSetDelay (fun x => decode_encode (.fSetDelay x)) fun _ => rfl,
    .ofLowByte 0xF 0x18 .fSetSound (fun x => decode_encode (.fSetSound x)) fun _ => rfl,
    .ofLowByte 0xF 0x1E .addIndex (fun x => decode_encode (.addIndex x)) fun _ => rfl,
    .ofLowByte 0xF 0x29 .loadFont (fun x => decode_encode (.loadFont x)) fun _ => rfl,
    .ofLowByte 0xF 0x33 .storeBCD (fun x => decode_encode (.storeBCD x)) fun _ => rfl,
    .ofLowByte 0xF 0x55 .storeRegs (fun x => decode_encode (.storeRegs x)) fun _ => rfl,
    .ofLowByte 0xF 0x65 .loadRegs (fun x => decode_encode (.loadRegs x)) fun _ => rfl, nofun⟩

/-- Two rows that a common word matches agree on the bits that both test. -/
theorem matchBits_agree {r r' : OpcodeRow} {w : Word} (h : r.matchesWord w = true) (h' : r'.matchesWord w = true) :
    r.matchBits &&& r'.mask = r'.matchBits &&& r.mask := by
  rw [← beq_iff_eq.mp h, ← beq_iff_eq.mp h', BitVec.and_assoc, BitVec.and_assoc, BitVec.and_comm r.mask]

/-- Two different rows disagree on a bit that both test. -/
theorem opcodeRows_disjoint : ∀ r ∈ opcodeRows, ∀ r' ∈ opcodeRows,
    r.matchBits &&& r'.mask = r'.matchBits &&& r.mask → r' = r := by
  decide

theorem opcodeRows_unique {r r' : OpcodeRow} {w : Word} (hr : r ∈ opcodeRows) (hr' : r' ∈ opcodeRows)
    (h : r.matchesWord w = true) (h' : r'.matchesWord w = true) : r' = r :=
  opcodeRows_disjoint r hr r' hr' (matchBits_agree h h')

theorem decode_eq_unknown_iff {w : Word} : decode w = .unknown w ↔ inOpcodeMap w = false := by
  constructor
  · intro hunknown
    rw [Bool.eq_false_iff, ne_eq, inOpcodeMap_iff]
    rintro ⟨r, hr, hmatch⟩
    obtain ⟨i, hdefined, -⟩ := opcodeRows_decode r hr w hmatch
    rw [hunknown] at hdefined
    cases hdefined
  · intro hout
    cases hdecode : decode w with
    | defined i => exact absurd (inOpcodeMap_of_decode hdecode) (by rw [hout]; decide)
    | unknown o => rw [decode_unknown hdecode]

/-- Settles O2: an instruction is decoded from its word by `decode_encode`; a well-formed Unknown carries a word outside
the map, on which the decoder answers Unknown. -/
theorem decodeOfEncodeIsIdentity : Obligations.DecodeOfEncodeIsIdentity := by
  unfold Obligations.DecodeOfEncodeIsIdentity
  refine ⟨decode_encode, ?_⟩
  intro d hwf
  cases d with
  | defined i => exact decode_encode i
  | unknown w =>
    have hout : inOpcodeMap w = false := by simpa [Decoded.wellFormed] using hwf
    exact decode_eq_unknown_iff.mpr hout

/-- Settles O3: each branch of the decoder fixes the family and the selector of the word, and its answer holds the other
fields; only the two answers of family 0x0 drop one. -/
theorem encodeOfDecodeLosesOnlyTheIgnoredNibble : Obligations.EncodeOfDecodeLosesOnlyTheIgnoredNibble := by
  unfold Obligations.EncodeOfDecodeLosesOnlyTheIgnoredNibble
  intro w i h
  exact encode_of_decode h

/-- Settles O4: a word that matches a row decodes to that row's instruction, and the word of an instruction matches a
row. -/
theorem unknownExactlyWhenNoRowMatches : Obligations.UnknownExactlyWhenNoRowMatches := by
  unfold Obligations.UnknownExactlyWhenNoRowMatches
  intro w
  exact ⟨decode_eq_unknown_iff, fun _ h => decode_unknown h⟩

/-- Settles O5: the row names the instruction, and any two rows disagree on a bit that both test. -/
theorem matchingRowNamesTheInstruction : Obligations.MatchingRowNamesTheInstruction := by
  unfold Obligations.MatchingRowNamesTheInstruction
  intro w r hr hmatch
  exact ⟨opcodeRows_decode r hr w hmatch, fun r' hr' hmatch' => opcodeRows_unique hr hr' hmatch hmatch'⟩

end Sys2Proof
end

section
/-!
The layer the proofs about instructions share: what `exec` answers for each instruction (those of the four skips, of the
loads, of AddImm and of LoadIndex stand above), and one frame theorem for all of them.
-/

namespace Sys2Proof.Machine

/-! ### What each instruction answers -/

theorem exec_clearScreen (s : State) :
    exec .clearScreen s = .next { s.advance with fb := Vector.replicate 32 0 } := rfl

theorem exec_jump (nnn : Addr12) (s : State) : exec (.jump nnn) s = .next (s.advance.setPc (zextAddr nnn)) := rfl

theorem exec_jumpOffset (nnn : Addr12) (s : State) :
    exec (.jumpOffset nnn) s = .next (s.advance.setPc (s.offsetTarget nnn)) := rfl

/-- The state after a Call with a free stack cell. -/
def State.called (s : State) (h : s.sp.val < 16) (target : Word) : State :=
  { s with pc := target, stack := s.stack.set s.sp.val (s.pc + 2) h, sp := ⟨s.sp.val + 1, Nat.succ_lt_succ h⟩ }

theorem exec_call_of_lt (nnn : Addr12) {s : State} (h : s.sp.val < 16) :
    exec (.call nnn) s = .next (s.called h (zextAddr nnn)) := by
  have hpush : s.advance.push s.advance.pc = some ((s.called h (zextAddr nnn)).setPc (s.pc + 2)) := dif_pos h
  rw [exec, execCall, hpush]
  rfl

theorem exec_call_full (nnn : Addr12) {s : State} (h : s.sp.val = 16) :
    exec (.call nnn) s = .fault (.stackOverflow s.pc) := by
  have hpush : s.advance.push s.advance.pc = none := dif_neg (by rw [State.advance_sp]; omega)
  rw [exec, execCall, hpush]
  rfl

/-- With `sp > 0` the top cell of the stack exists. -/
theorem State.top_lt (s : State) : s.sp.val - 1 < 16 := by
  have := s.sp.isLt
  omega

/-- The state after a Return with a non-empty stack. -/
def State.returned (s : State) : State :=
  { s with pc := s.stack[s.sp.val - 1]'s.top_lt, sp := ⟨s.sp.val - 1, Nat.lt_succ_of_lt s.top_lt⟩ }

theorem exec_ret_of_pos {s : State} (h : 0 < s.sp.val) : exec .ret s = .next s.returned := by
  have hpop : s.advance.pop = some (s.returned.pc, s.returned.setPc (s.pc + 2)) :=
    dif_neg (by rw [State.advance_sp]; omega)
  rw [exec, execRet, hpop]
  rfl

theorem exec_ret_empty {s : State} (h : s.sp.val = 0) : exec .ret s = .fault (.stackUnderflow s.pc) := by
  have hpop : s.advance.pop = none := dif_pos h
  rw [exec, execRet, hpop]
  rfl

theorem exec_orReg (x y : Nibble) (s : State) :
    exec (.orReg x y) s = .next (s.advance.setReg x (s.reg x ||| s.reg y)) := rfl

theorem exec_andReg (x y : Nibble) (s : State) :
    exec (.andReg x y) s = .next (s.advance.setReg x (s.reg x &&& s.reg y)) := rfl

theorem exec_xorReg (x y : Nibble) (s : State) :
    exec (.xorReg x y) s = .next (s.advance.setReg x (s.reg x ^^^ s.reg y)) := rfl

theorem exec_addReg (x y : Nibble) (s : State) : exec (.addReg x y) s =
    .next (s.advance.setResultThenFlag x (s.reg x + s.reg y) (carryFlag (s.reg x) (s.reg y))) := rfl

theorem exec_sub (x y : Nibble) (s : State) : exec (.sub x y) s =
    .next (s.advance.setResultThenFlag x (s.reg x - s.reg y) (noBorrowFlag (s.reg x) (s.reg y))) := rfl

theorem exec_subN (x y : Nibble) (s : State) : exec (.subN x y) s =
    .next (s.advance.setResultThenFlag x (s.reg y - s.reg x) (noBorrowFlag (s.reg y) (s.reg x))) := rfl

theorem exec_shr (x y : Nibble) (s : State) : exec (.shr x y) s =
    .next (s.advance.setResultThenFlag x (s.reg x >>> 1) (lowBitFlag (s.reg x))) := rfl

theorem exec_shl (x y : Nibble) (s : State) : exec (.shl x y) s =
    .next (s.advance.setResultThenFlag x (s.reg x <<< 1) (highBitFlag (s.reg x))) := rfl

theorem exec_random (x : Nibble) (kk : Byte) (s : State) :
    exec (.random x kk) s = .next { s.advance.setReg x (s.rnd &&& kk) with draws := s.draws + 1 } := rfl

theorem exec_addIndex (x : Nibble) (s : State) :
    exec (.addIndex x) s = .next (s.advance.setIndex (s.index + zextByte (s.reg x))) := rfl

theorem exec_loadFont (x : Nibble) (s : State) :
    exec (.loadFont x) s = .next (s.advance.setIndex (glyphAddress (s.reg x))) := rfl

/-- The framebuffer and the collision flag a Draw leaves (R181). -/
def State.drawn (s : State) (x y n : Nibble) : Canvas :=
  ({ fb := s.fb, collision := false } : Canvas).drawRows (s.bytesAtIndex n.toNat) (s.anchorColumn x) (s.anchorRow y)

/-- The state after a Draw whose sprite bytes exist. -/
def State.afterDraw (s : State) (x y n : Nibble) : State :=
  { s.advance.setReg 15 (flagByte (s.drawn x y n).collision) with fb := (s.drawn x y n).fb }

theorem exec_draw (x y n : Nibble) (s : State) :
    exec (.draw x y n) s = s.guardRange n.toNat (.next (s.afterDraw x y n)) := rfl

theorem exec_storeBCD (x : Nibble) (s : State) :
    exec (.storeBCD x) s = s.guardRange 3 (.next (s.advance.storeAtIndex (bcdDigits (s.reg x)))) := rfl

theorem exec_storeRegs (x : Nibble) (s : State) :
    exec (.storeRegs x) s = s.guardRange (x.toNat + 1) (.next (s.advance.storeAtIndex (s.regsUpTo x))) := rfl

theorem exec_loadRegs (x : Nibble) (s : State) :
    exec (.loadRegs x) s = s.guardRange (x.toNat + 1) (.next (s.advance.loadFromIndex x)) := rfl

theorem exec_skipKeyPressed (x : Nibble) (s : State) :
    exec (.skipKeyPressed x) s = s.withKey x (fun pressed => .next (s.advance.skipIf pressed)) := rfl

theorem exec_skipKeyNotPressed (x : Nibble) (s : State) :
    exec (.skipKeyNotPressed x) s = s.withKey x (fun pressed => .next (s.advance.skipIf (!pressed))) := rfl

theorem exec_waitKey_stalled (x : Nibble) {s : State} (h : s.pendingKey = none) : exec (.waitKey x) s = .next s := by
  rw [exec, execWaitKey, h]
  exact congrArg _ s.advance_rollBack

theorem exec_waitKey_latched (x : Nibble) {s : State} {k : Nibble} (h : s.pendingKey = some k) :
    exec (.waitKey x) s = .next { s.advance.setReg x (zextKey k) with pendingKey := none } := by
  rw [exec, execWaitKey, h]

theorem exec_loadDelay (x : Nibble) (s : State) : exec (.loadDelay x) s = .next (s.advance.setReg x s.dt) := rfl

theorem exec_fSetDelay (x : Nibble) (s : State) :
    exec (.fSetDelay x) s = .next { s.advance with dt := s.reg x } := rfl

theorem exec_fSetSound (x : Nibble) (s : State) :
    exec (.fSetSound x) s = .next { s.advance with st := s.reg x } := rfl

/-- A register read after its write. -/
theorem State.reg_setReg_self (s : State) (x : Nibble) (b : Byte) : (s.setReg x b).reg x = b := by
  rw [State.reg_setReg, if_pos rfl]

/-! ### The instructions that can fault, when they do not -/

theorem exec_call_next {nnn : Addr12} {s t : State} (h : exec (.call nnn) s = .next t) :
    ∃ hsp : s.sp.val < 16, t = s.called hsp (zextAddr nnn) := by
  by_cases hsp : s.sp.val < 16
  · rw [exec_call_of_lt nnn hsp] at h
    cases h
    exact ⟨hsp, rfl⟩
  · have := s.sp.isLt
    rw [exec_call_full nnn (by omega)] at h
    cases h

theorem exec_ret_next {s t : State} (h : exec .ret s = .next t) : 0 < s.sp.val ∧ t = s.returned := by
  by_cases hsp : 0 < s.sp.val
  · rw [exec_ret_of_pos hsp] at h
    cases h
    exact ⟨hsp, rfl⟩
  · rw [exec_ret_empty (by omega)] at h
    cases h

/-- A transfer that answers a next state was in range and answers what its range check guards. -/
theorem State.eq_of_guardRange_next {s t u : State} {n : Nat} (h : s.guardRange n (.next u) = .next t) : t = u := by
  obtain ⟨-, hnext⟩ := State.guardRange_next.mp h
  cases hnext
  rfl

theorem exec_draw_next {x y n : Nibble} {s t : State} (h : exec (.draw x y n) s = .next t) : t = s.afterDraw x y n :=
  State.eq_of_guardRange_next h

/-- A keypad skip that answers a next state is a skip on a key's state or on its negation. -/
theorem exec_keySkip_next {x : Nibble} {f : Bool → Bool} {s t : State}
    (h : s.withKey x (fun pressed => .next (s.advance.skipIf (f pressed))) = .next t) :
    ∃ c, t = s.advance.skipIf c := by
  rcases s.withKey_cases x (fun pressed => .next (s.advance.skipIf (f pressed))) with ⟨_, heq⟩ | ⟨_, heq⟩
  · rw [heq] at h
    cases h
    exact ⟨_, rfl⟩
  · rw [heq] at h
    cases h

/-- A WaitKey leaves the state or consumes the latched key. -/
theorem exec_waitKey_next {x : Nibble} {s t : State} (h : exec (.waitKey x) s = .next t) :
    t = s ∨ ∃ k, t = { s.advance.setReg x (zextKey k) with pendingKey := none } := by
  cases hkey : s.pendingKey with
  | none =>
    rw [exec_waitKey_stalled x hkey] at h
    cases h
    exact .inl rfl
  | some k =>
    rw [exec_waitKey_latched x hkey] at h
    cases h
    exact .inr ⟨k, rfl⟩

/-! ### The frame of every instruction -/

/-- The parts of the state that an instruction executed in state `s` may change. -/
def mayChange (s : State) : Instr → Part → Prop
  | .clearScreen, p => (∃ k, k < 2048 ∧ p = .cell k) ∨ p = .pc
  | .ret, p => p = .pc ∨ p = .sp
  | .call _, p => p = .pc ∨ p = .sp ∨ ∃ k : Fin 16, k.val = s.sp.val ∧ p = .stackCell k
  | .jump _, p | .jumpOffset _, p | .skipEqImm _ _, p | .skipNeImm _ _, p | .skipEqReg _ _, p | .skipNeReg _ _, p
  | .skipKeyPressed _, p | .skipKeyNotPressed _, p => p = .pc
  | .loadImm x _, p | .addImm x _, p | .loadReg x _, p | .orReg x _, p | .andReg x _, p | .xorReg x _, p
  | .loadDelay x, p => p = .reg x ∨ p = .pc
  | .addReg x _, p | .sub x _, p | .shr x _, p | .subN x _, p | .shl x _, p => p = .reg x ∨ p = .reg 15 ∨ p = .pc
  | .random x _, p => p = .reg x ∨ p = .pc ∨ p = .draws
  | .loadIndex _, p | .addIndex _, p | .loadFont _, p => p = .index ∨ p = .pc
  | .draw _ _ _, p => (∃ k, k < 2048 ∧ p = .cell k) ∨ p = .reg 15 ∨ p = .pc
  | .waitKey x, p => p = .reg x ∨ p = .latch ∨ p = .pc
  | .fSetDelay _, p => p = .delayTimer ∨ p = .pc
  | .fSetSound _, p => p = .soundTimer ∨ p = .pc
  | .storeBCD _, p => (∃ k, k < 3 ∧ p = .byte (s.index.toNat + k)) ∨ p = .pc
  | .storeRegs x, p => (∃ k, k ≤ x.toNat ∧ p = .byte (s.index.toNat + k)) ∨ p = .pc
  | .loadRegs x, p => (∃ k : Nibble, k ≤ x ∧ p = .reg k) ∨ p = .pc

/-- An update after the advance changes what it changes, and `pc`. -/
theorem OnlyChanges.afterAdvance {c : Part → Prop} {s t : State} (h : OnlyChanges c s.advance t) :
    OnlyChanges (fun p => c p ∨ p = .pc) s t :=
  (s.advance_frame.mono fun _ => .inr).trans (h.mono fun _ => .inl)

/-- There is no cell outside the 2048 of the grid. -/
theorem cellOf_outside (fb : Framebuffer) {k : Nat} (h : 2048 ≤ k) : cellOf fb k = false := by
  have hrow : ¬ k / 64 < 32 := by omega
  simp [cellOf, hrow]

/-- Another framebuffer changes cells of the grid only. -/
theorem withFb_frame (s : State) (fb : Framebuffer) :
    OnlyChanges (fun p => ∃ k, k < 2048 ∧ p = .cell k) s { s with fb := fb } := by
  intro p hp
  cases p with
  | cell k =>
    have outside : 2048 ≤ k := Nat.le_of_not_lt fun hk => hp ⟨k, hk, rfl⟩
    exact congrArg Seen.bit ((cellOf_outside fb outside).trans (cellOf_outside s.fb outside).symm)
  | _ => rfl

theorem withDt_frame (s : State) (b : Byte) : OnlyChanges (· = .delayTimer) s { s with dt := b } := by
  intro p hp
  cases p with
  | delayTimer => exact absurd rfl hp
  | _ => rfl

theorem withSt_frame (s : State) (b : Byte) : OnlyChanges (· = .soundTimer) s { s with st := b } := by
  intro p hp
  cases p with
  | soundTimer => exact absurd rfl hp
  | _ => rfl

theorem withLatch_frame (s : State) (k : Option Nibble) : OnlyChanges (· = .latch) s { s with pendingKey := k } := by
  intro p hp
  cases p with
  | latch => exact absurd rfl hp
  | _ => rfl

theorem withDraws_frame (s : State) (n : Nat) : OnlyChanges (· = .draws) s { s with draws := n } := by
  intro p hp
  cases p with
  | draws => exact absurd rfl hp
  | _ => rfl

theorem State.called_frame (s : State) (h : s.sp.val < 16) (target : Word) :
    OnlyChanges (fun p => p = .pc ∨ p = .sp ∨ p = .stackCell ⟨s.sp.val, h⟩) s (s.called h target) := by
  intro p hp
  cases p with
  | pc => exact absurd (.inl rfl) hp
  | sp => exact absurd (.inr (.inl rfl)) hp
  | stackCell k =>
    have other : s.sp.val ≠ k.val := fun hk => hp (.inr (.inr (congrArg Part.stackCell (Fin.ext hk.symm))))
    exact congrArg Seen.word (Vector.getElem_set_ne h k.isLt other)
  | _ => rfl

theorem State.returned_frame (s : State) : OnlyChanges (fun p => p = .pc ∨ p = .sp) s s.returned := by
  intro p hp
  cases p with
  | pc => exact absurd (.inl rfl) hp
  | sp => exact absurd (.inr rfl) hp
  | _ => rfl

/-- A jump changes `pc` only, the advance before it included. -/
theorem State.advance_setPc_frame (s : State) (w : Word) : OnlyChanges (· = .pc) s (s.advance.setPc w) :=
  s.advance_frame.trans (s.advance.setPc_frame w)

/-- A flag-writing instruction changes its destination, the flag and `pc` only. -/
theorem State.advance_setResultThenFlag_frame (s : State) (x : Nibble) (r f : Byte) :
    OnlyChanges (fun p => p = .reg x ∨ p = .reg 15 ∨ p = .pc) s (s.advance.setResultThenFlag x r f) :=
  (s.advance.setResultThenFlag_frame x r f).afterAdvance.mono fun _ => or_assoc.mp

theorem State.afterDraw_frame (s : State) (x y n : Nibble) :
    OnlyChanges (fun p => (∃ k, k < 2048 ∧ p = .cell k) ∨ p = .reg 15 ∨ p = .pc) s (s.afterDraw x y n) :=
  ((s.advance_setReg_frame 15 _).mono fun _ => .inr).trans ((withFb_frame _ _).mono fun _ => .inl)

/-- A store of `n` bytes at `I` changes those bytes and `pc` only. -/
theorem State.advance_storeAtIndex_frame (s : State) {bs : List Byte} {n : Nat} (hn : bs.length = n) :
    OnlyChanges (fun p => (∃ k, k < n ∧ p = .byte (s.index.toNat + k)) ∨ p = .pc) s (s.advance.storeAtIndex bs) :=
  hn ▸ (s.advance.storeAtIndex_frame bs).afterAdvance

/-- The frame of every instruction. -/
theorem exec_frame {i : Instr} {s t : State} (h : exec i s = .next t) : OnlyChanges (mayChange s i) s t := by
  cases i with
  | clearScreen => cases h; exact (withFb_frame s.advance _).afterAdvance
  | ret => obtain ⟨-, rfl⟩ := exec_ret_next h; exact s.returned_frame
  | call nnn =>
    obtain ⟨hsp, rfl⟩ := exec_call_next h
    exact (s.called_frame hsp _).mono fun _ => Or.imp_right (Or.imp_right fun hp => ⟨_, rfl, hp⟩)
  | jump | jumpOffset => cases h; exact s.advance_setPc_frame _
  | skipEqImm | skipNeImm | skipEqReg | skipNeReg => cases h; exact s.advance_skipIf_frame _
  | skipKeyPressed => obtain ⟨c, rfl⟩ := exec_keySkip_next (f := id) h; exact s.advance_skipIf_frame c
  | skipKeyNotPressed => obtain ⟨c, rfl⟩ := exec_keySkip_next h; exact s.advance_skipIf_frame c
  | loadImm | addImm | loadReg | orReg | andReg | xorReg | loadDelay => cases h; exact s.advance_setReg_frame _ _
  | addReg | sub | shr | subN | shl => cases h; exact s.advance_setResultThenFlag_frame _ _ _
  | random =>
    cases h
    exact ((s.advance_setReg_frame _ _).mono fun _ => Or.imp_right .inl).trans
      ((withDraws_frame _ _).mono fun _ hp => .inr (.inr hp))
  | loadIndex | addIndex | loadFont => cases h; exact s.advance_setIndex_frame _
  | draw x y n => obtain rfl := exec_draw_next h; exact s.afterDraw_frame x y n
  | storeBCD => obtain rfl := State.eq_of_guardRange_next h; exact s.advance_storeAtIndex_frame rfl
  | storeRegs x =>
    obtain rfl := State.eq_of_guardRange_next h
    exact (s.advance_storeAtIndex_frame (s.regsUpTo_length x)).mono fun _ =>
      Or.imp_left fun ⟨k, hk, hp⟩ => ⟨k, Nat.le_of_lt_succ hk, hp⟩
  | loadRegs x =>
    obtain rfl := State.eq_of_guardRange_next h
    exact (s.advance.loadFromIndex_frame x).afterAdvance
  | waitKey x =>
    rcases exec_waitKey_next h with rfl | ⟨k, rfl⟩
    · exact .refl _ _
    · exact ((s.advance_setReg_frame x _).mono fun _ => Or.imp_right .inr).trans
        ((withLatch_frame _ _).mono fun _ hp => .inr (.inl hp))
  | fSetDelay => cases h; exact (withDt_frame s.advance _).afterAdvance
  | fSetSound => cases h; exact (withSt_frame s.advance _).afterAdvance

end Sys2Proof.Machine
end

section
/-!
The proofs about the invariant of reachable states (10_state.md R33, R34): reset meets it, and every instruction and every
host command keeps it. Each update is shown once to keep it; an instruction is an advance and one or two updates.
-/

namespace Sys2Proof
namespace Machine

/-! ### Updates that keep the invariant -/

theorem State.Inv.pc_le {s : State} (h : s.Inv) : s.pc.toNat ≤ 0x10FE := h.2.1

/-- An update that leaves memory and the stack keeps the invariant if it keeps `pc` in bounds. -/
theorem State.Inv.of_same {s t : State} (h : s.Inv) (hpc : t.pc.toNat ≤ 0x10FE) (hmem : t.mem = s.mem)
    (hstack : t.stack = s.stack) (hsp : t.sp = s.sp) : t.Inv := by
  obtain ⟨hwf, -, hcells⟩ := h
  refine ⟨hmem ▸ hwf, hpc, ?_⟩
  rw [hstack, hsp]
  exact hcells

/-- After a fetch the advanced `pc` is in bounds. -/
theorem State.advance_inv {s : State} (h : s.Inv) (hfetch : s.pc.toNat ≤ 0xFFE) : s.advance.Inv :=
  h.of_same (by rw [State.advance_pc]; bv_omega) rfl rfl rfl

theorem State.Inv.skip {s : State} (h : s.Inv) (hfetch : s.pc.toNat ≤ 0xFFE) (c : Bool) : (s.advance.skipIf c).Inv := by
  refine h.of_same ?_ (s.advance.skipIf_mem c) (s.advance.skipIf_stack c) (s.advance.skipIf_sp c)
  rw [State.advance_skipIf_pc]
  split
  · bv_omega
  · bv_omega

theorem State.Inv.storeBytes {s t : State} (h : s.Inv) (a : Nat) (bs : List Byte) (hmem : t.mem = writeBytes s.mem a bs)
    (hpc : t.pc = s.pc) (hstack : t.stack = s.stack) (hsp : t.sp = s.sp) : t.Inv := by
  obtain ⟨hwf, hbound, hcells⟩ := h
  refine ⟨hmem ▸ writeBytes_wf hwf a bs, hpc ▸ hbound, ?_⟩
  rw [hstack, hsp]
  exact hcells

/-- A 12-bit target is in bounds. -/
theorem zextAddr_le (nnn : Addr12) : (zextAddr nnn).toNat ≤ 0x10FE := by
  have := nnn.isLt
  rw [zextAddr_toNat]
  omega

/-- The target of a JumpOffset is in bounds: 0x10FE is the largest there is. -/
theorem State.offsetTarget_le (s : State) (nnn : Addr12) : (s.offsetTarget nnn).toNat ≤ 0x10FE := by
  have := nnn.isLt
  have := (s.reg 0).isLt
  rw [State.offsetTarget_toNat]
  omega

/-- A Call pushes an advanced `pc`, which a fetch bounds by 0x1000. -/
theorem State.Inv.called {s : State} (h : s.Inv) (hfetch : s.pc.toNat ≤ 0xFFE) (hsp : s.sp.val < 16) (nnn : Addr12) :
    (s.called hsp (zextAddr nnn)).Inv := by
  obtain ⟨hwf, -, hcells⟩ := h
  refine ⟨hwf, zextAddr_le nnn, fun k hk => ?_⟩
  simp only [State.called, Vector.getElem_set] at hk ⊢
  split
  · bv_omega
  · exact hcells k (by omega)

/-- A Return takes `pc` from a valid stack cell. -/
theorem State.Inv.returned {s : State} (h : s.Inv) (hsp : 0 < s.sp.val) : s.returned.Inv := by
  obtain ⟨hwf, -, hcells⟩ := h
  have htop := hcells ⟨s.sp.val - 1, s.top_lt⟩ (by simp only; omega)
  refine ⟨hwf, ?_, fun k hk => hcells k ?_⟩
  · exact htop.2.trans (by omega)
  · simp only [State.returned] at hk
    omega

/-! ### Every instruction, every command, every step -/

theorem exec_inv {i : Instr} {s t : State} (hinv : s.Inv) (hfetch : s.pc.toNat ≤ 0xFFE) (h : exec i s = .next t) :
    t.Inv := by
  have hadv : s.advance.Inv := State.advance_inv hinv hfetch
  have same {u : State} (hpc : u.pc = s.advance.pc) : u.mem = s.mem → u.stack = s.stack → u.sp = s.sp → u.Inv :=
    hadv.of_same (hpc ▸ hadv.pc_le)
  cases i with
  | call nnn => obtain ⟨hsp, rfl⟩ := exec_call_next h; exact hinv.called hfetch hsp nnn
  | ret => obtain ⟨hsp, rfl⟩ := exec_ret_next h; exact hinv.returned hsp
  | jump nnn => cases h; exact hinv.of_same (zextAddr_le nnn) rfl rfl rfl
  | jumpOffset nnn => cases h; exact hinv.of_same (s.offsetTarget_le nnn) rfl rfl rfl
  | skipEqImm | skipNeImm | skipEqReg | skipNeReg => cases h; exact hinv.skip hfetch _
  | skipKeyPressed => obtain ⟨c, rfl⟩ := exec_keySkip_next (f := id) h; exact hinv.skip hfetch c
  | skipKeyNotPressed => obtain ⟨c, rfl⟩ := exec_keySkip_next h; exact hinv.skip hfetch c
  | storeBCD | storeRegs => obtain rfl := State.eq_of_guardRange_next h; exact hadv.storeBytes _ _ rfl rfl rfl rfl
  | draw => obtain rfl := exec_draw_next h; exact same rfl rfl rfl rfl
  | loadRegs => obtain rfl := State.eq_of_guardRange_next h; exact same rfl rfl rfl rfl
  | waitKey x =>
    rcases exec_waitKey_next h with rfl | ⟨k, rfl⟩
    · exact hinv
    · exact same rfl rfl rfl rfl
  | clearScreen | loadImm | addImm | loadReg | orReg | andReg | xorReg | addReg | sub | shr | subN | shl | loadIndex
  | random | loadDelay | fSetDelay | fSetSound | addIndex | loadFont => cases h; exact same rfl rfl rfl rfl

/-- A cycle that fetches runs the decoded instruction or advances over an Unknown; one that does not is FetchBounds. -/
theorem cycle_cases (s : State) :
    (∃ i, s.decoded = some (.defined i) ∧ s.pc.toNat ≤ 0xFFE ∧ cycle s = exec i s) ∨
    (∃ w, s.decoded = some (.unknown w) ∧ s.pc.toNat ≤ 0xFFE ∧ cycle s = .next s.advance) ∨
    (s.decoded = none ∧ 0xFFE < s.pc.toNat ∧ cycle s = .fault (.fetchBounds s.pc)) := by
  by_cases hpc : s.pc.toNat ≤ 0xFFE
  · have hdecoded : s.decoded = some (decode _) := congrArg (Option.map decode) (State.fetch_inRange hpc)
    cases hd : decode (opcodeOfBytes (s.byteAt s.pc.toNat) (s.byteAt (s.pc.toNat + 1))) with
    | defined i => rw [hd] at hdecoded; exact .inl ⟨i, hdecoded, hpc, cycle_of_defined hdecoded⟩
    | unknown w => rw [hd] at hdecoded; exact .inr (.inl ⟨w, hdecoded, hpc, cycle_of_unknown hdecoded⟩)
  · have hdecoded : s.decoded = none := congrArg (Option.map decode) (State.fetch_outOfRange (by omega))
    exact .inr (.inr ⟨hdecoded, by omega, cycle_of_none hdecoded⟩)

theorem cycle_inv {s t : State} (hinv : s.Inv) (h : cycle s = .next t) : t.Inv := by
  rcases cycle_cases s with ⟨i, -, hfetch, heq⟩ | ⟨w, -, hfetch, heq⟩ | ⟨-, -, heq⟩
  · exact exec_inv hinv hfetch (heq ▸ h)
  · rw [heq] at h
    cases h
    exact State.advance_inv hinv hfetch
  · rw [heq] at h
    cases h

/-- The model's own fields do not matter to the invariant. -/
theorem State.Inv.withInputs {s : State} (h : s.Inv) (c : List Command) (r : Option Byte) (n : Nat) :
    State.Inv { s with commands := c, rndIn := r, draws := n } := h

theorem reset_inv : State.reset.Inv := by
  refine ⟨reset_mem_wf, ?_, fun k hk => ?_⟩
  · decide
  · exact absurd hk (Nat.not_lt_zero _)

/-- A next state after the input is restored is a next state before, up to that input. -/
theorem restoreRnd_eq_next {r : Option Byte} {a : Result} {t : State} (h : restoreRnd r a = .next t) :
    ∃ u, a = .next u ∧ t = { u with rndIn := r } := by
  cases a with
  | next u => cases h; exact ⟨u, rfl, rfl⟩
  | fault f => cases h
  | refused e => cases h

theorem runCommand_loadProgram_ok {bytes : List Byte} (s : State) (h : bytes.length ≤ 3584) :
    runCommand (.loadProgram bytes) s = ({ s with mem := writeBytes s.mem 0x200 bytes }, .ok) := by
  have hload : s.loadProgram bytes = some { s with mem := writeBytes s.mem 0x200 bytes } := if_neg (Nat.not_lt.mpr h)
  rw [runCommand, hload]

theorem runCommand_loadProgram_error {bytes : List Byte} (s : State) (h : 3584 < bytes.length) :
    runCommand (.loadProgram bytes) s = (s, .loadError) := by
  have hload : s.loadProgram bytes = none := if_pos h
  rw [runCommand, hload]

/-- A host command other than `cycle` keeps the invariant. -/
theorem runCommand_inv {c : Command} {s : State} (hc : ∀ r, c ≠ .cycle r) (hinv : s.Inv) : (runCommand c s).1.Inv := by
  have same {u : State} (hpc : u.pc = s.pc) : u.mem = s.mem → u.stack = s.stack → u.sp = s.sp → u.Inv :=
    hinv.of_same (hpc ▸ hinv.pc_le)
  cases c with
  | reset => exact reset_inv.withInputs _ _ _
  | loadProgram bytes =>
    by_cases hlen : bytes.length ≤ 3584
    · rw [runCommand_loadProgram_ok s hlen]
      exact hinv.storeBytes 0x200 bytes rfl rfl rfl rfl
    · rw [runCommand_loadProgram_error s (by omega)]
      exact hinv
  | cycle r => exact absurd rfl (hc r)
  | stepTimers | setKey | setDelayTimer | setSoundTimer => exact same rfl rfl rfl rfl
  | framebuffer | delayTimer | soundTimer | audioActive => exact hinv

/-- With a queued command other than `cycle` a step is that command. -/
theorem step_of_command {s : State} {c : Command} {rest : List Command} (h : s.commands = c :: rest)
    (hc : ∀ r, c ≠ .cycle r) : step s = .next (runCommand c { s with commands := rest }).1 := by
  cases c with
  | cycle r => exact absurd rfl (hc r)
  | _ => simp only [step, runStep, h]

theorem step_inv {s t : State} (hinv : s.Inv) (h : step s = .next t) : t.Inv := by
  cases hq : s.commands with
  | nil => exact cycle_inv hinv (step_of_empty hq ▸ h)
  | cons c rest =>
    by_cases hc : ∃ r, c = .cycle r
    · obtain ⟨r, rfl⟩ := hc
      rw [step_of_cycle hq] at h
      obtain ⟨u, hcycle, rfl⟩ := restoreRnd_eq_next h
      exact (cycle_inv (hinv.withInputs rest (some r) s.draws) hcycle).withInputs _ _ _
    · rw [step_of_command hq (not_exists.mp hc)] at h
      cases h
      exact runCommand_inv (not_exists.mp hc) (hinv.withInputs rest s.rndIn s.draws)

end Machine

open Machine

/-- Settles O16: nothing is listed in memory, `pc` is 0x200 and no stack cell is valid. -/
theorem resetMeetsTheInvariant : Obligations.ResetMeetsTheInvariant := by
  unfold Obligations.ResetMeetsTheInvariant
  exact reset_inv

/-- Settles O17: a step is a cycle, whose fetch bounds the advanced `pc`, or a host command. -/
theorem everyStepKeepsTheInvariant : Obligations.EveryStepKeepsTheInvariant := by
  unfold Obligations.EveryStepKeepsTheInvariant
  intro s t hinv h
  exact step_inv hinv h

/-- Settles O7: the queue of a step is taken from its oldest end. -/
theorem stepAppliesTheOldestHostCommand : Obligations.StepAppliesTheOldestHostCommand := by
  unfold Obligations.StepAppliesTheOldestHostCommand
  intro s c rest hq hc
  exact step_of_command hq hc

end Sys2Proof
end

section
/-!
The proofs about jumps, calls and returns (41_control_flow.md).
-/

namespace Sys2Proof
namespace Machine

/-! ### Jumps -/

/-- A jump to where the machine already stands leaves the state. -/
theorem State.advance_setPc_self {s : State} {w : Word} (h : w = s.pc) : s.advance.setPc w = s := by
  rw [h]
  rfl

/-! ### A Call and its Return -/

theorem State.called_stack (s : State) (h : s.sp.val < 16) (target : Word) :
    (s.called h target).stack[s.sp.val] = s.pc + 2 :=
  Vector.getElem_set_self h

/-- The Return pops what the Call pushed. -/
theorem State.called_returned_pc (s : State) (h : s.sp.val < 16) (target : Word) :
    (s.called h target).returned.pc = s.pc + 2 :=
  s.called_stack h target

/-- The Return lowers `sp` to what it was before the Call. -/
theorem State.called_returned_sp (s : State) (h : s.sp.val < 16) (target : Word) :
    (s.called h target).returned.sp = s.sp := rfl

/-- A part that comes back to its old value can be left out of a frame. -/
theorem OnlyChanges.restored {c d : Part → Prop} {s t : State} (h : OnlyChanges c s t) (p : Part)
    (hp : observe t p = observe s p) (hcd : ∀ q, c q → q ≠ p → d q) : OnlyChanges d s t := by
  intro q hq
  by_cases hqp : q = p
  · rw [hqp, hp]
  · exact h q fun hc => hq (hcd q hc hqp)

/-- A Call and its Return change `pc` and the cell the Call wrote only. -/
theorem State.called_returned_frame (s : State) (h : s.sp.val < 16) (target : Word) :
    OnlyChanges (fun p => p = .pc ∨ p = .stackCell ⟨s.sp.val, h⟩) s (s.called h target).returned := by
  have both := (s.called_frame h target).trans
    ((s.called h target).returned_frame.mono fun _ => Or.imp_right Or.inl)
  refine both.restored .sp rfl ?_
  rintro q (hpc | hsp | hcell) hne
  · exact .inl hpc
  · exact absurd hsp hne
  · exact .inr hcell

end Machine

open Machine

/-- Settles O19: the word is that of `encodeNNN`, and the meaning is one write of `pc`. -/
theorem jumpSetsPcOnly : Obligations.JumpSetsPcOnly := by
  unfold Obligations.JumpSetsPcOnly
  intro nnn s
  refine ⟨decode_encodeNNN_one nnn, _, exec_jump nnn s, zextAddr_toNat nnn, s.advance_setPc_frame _, fun hself => ?_⟩
  have target_eq_pc : zextAddr nnn = s.pc := BitVec.eq_of_toNat_eq (by rw [zextAddr_toNat, hself])
  exact State.advance_setPc_self target_eq_pc

/-- Settles O20: the word is that of `encodeNNN`, and the meaning is one write of `pc`, of a sum that does not wrap. -/
theorem jumpOffsetAddsVZero : Obligations.JumpOffsetAddsVZero := by
  unfold Obligations.JumpOffsetAddsVZero
  intro nnn s
  exact ⟨decode_encodeNNN_eleven nnn, _, exec_jumpOffset nnn s, s.offsetTarget_toNat nnn, s.advance_setPc_frame _⟩

/-- Settles O23: with a free cell the push succeeds. -/
theorem callPushesTheReturnAddress : Obligations.CallPushesTheReturnAddress := by
  unfold Obligations.CallPushesTheReturnAddress
  intro nnn s hsp
  exact ⟨_, exec_call_of_lt nnn hsp, s.called_stack hsp _, rfl, zextAddr_toNat nnn, s.called_frame hsp _⟩

/-- Settles O24: with a valid cell the pop succeeds. -/
theorem returnPopsIntoPc : Obligations.ReturnPopsIntoPc := by
  unfold Obligations.ReturnPopsIntoPc
  intro s hsp
  have lowered : s.returned.sp.val + 1 = s.sp.val := Nat.sub_add_cancel hsp
  exact ⟨_, exec_ret_of_pos hsp, Vector.getElem?_eq_getElem s.top_lt, lowered, s.returned_frame⟩

/-- Settles O25: the push fails at `sp = 16` and the pop at `sp = 0`. -/
theorem stackFaultsAtTheLimits : Obligations.StackFaultsAtTheLimits := by
  unfold Obligations.StackFaultsAtTheLimits
  intro nnn s
  refine ⟨fun hfull => ?call, fun hempty => ?ret⟩
  case call => exact ⟨_, exec_call_full nnn hfull, rfl, rfl⟩
  case ret => exact ⟨_, exec_ret_empty hempty, rfl, rfl⟩

/-- Settles O26: the Return pops the cell the Call pushed, and lowers the `sp` the Call raised. -/
theorem callThenReturnComesBack : Obligations.CallThenReturnComesBack := by
  unfold Obligations.CallThenReturnComesBack
  intro nnn s hsp
  exact ⟨_, _, exec_call_of_lt nnn hsp, exec_ret_of_pos (Nat.succ_pos _), s.called_returned_pc hsp _,
    s.called_returned_sp hsp _, s.called_returned_frame hsp _⟩

end Sys2Proof
end

section
/-!
The proofs about logic, flag-writing arithmetic, shifts and Random (42_alu.md). The logic instructions are one register
write; the arithmetic ones and the shifts write the result and then the flag.
-/

namespace Sys2Proof
namespace Machine

/-- An instruction that writes `result` to `V[x]` and then `flag` to `V[15]`. -/
theorem writesResult_of_setResultThenFlag {r : Result} {s : State} {x : Nibble} {result flag : Byte}
    (h : r = .next (s.advance.setResultThenFlag x result flag)) :
    ∃ t, r = .next t ∧ t.reg 15 = flag ∧ (x ≠ 15 → t.reg x = result) ∧ t.pc = s.pc + 2 ∧
      OnlyChanges (fun p => p = .reg x ∨ p = .reg 15 ∨ p = .pc) s t := by
  refine ⟨_, h, ?flag, fun hx => ?result, s.advance_pc, s.advance_setResultThenFlag_frame x result flag⟩
  case flag => rw [State.reg_setResultThenFlag, if_pos rfl]
  case result => rw [State.reg_setResultThenFlag, if_neg hx, if_pos rfl]

/-! ### The flags as conditions on numbers (R152) -/

theorem flagByte_decide (p : Prop) [Decidable p] : flagByte (decide p) = if p then 1 else 0 := by
  by_cases hp : p
  · rw [decide_eq_true hp, if_pos hp]; rfl
  · rw [decide_eq_false hp, if_neg hp]; rfl

theorem carryFlag_eq (p q : Byte) : carryFlag p q = if 255 < p.toNat + q.toNat then 1 else 0 := flagByte_decide _

theorem noBorrowFlag_eq (p q : Byte) : noBorrowFlag p q = if q.toNat ≤ p.toNat then 1 else 0 := flagByte_decide _

theorem lowBitFlag_eq (p : Byte) : lowBitFlag p = if p.toNat % 2 = 1 then 1 else 0 := by
  have hbit : p.getLsbD 0 = decide (p.toNat % 2 = 1) := Nat.testBit_zero _
  rw [lowBitFlag, hbit, flagByte_decide]

theorem highBitFlag_eq (p : Byte) : highBitFlag p = if 128 ≤ p.toNat then 1 else 0 := by
  have hbit : p.getLsbD 7 = decide (128 ≤ p.toNat) := by
    rw [BitVec.getLsbD, Nat.testBit_eq_decide_div_mod_eq, decide_eq_decide]
    have := p.isLt
    omega
  rw [highBitFlag, hbit, flagByte_decide]

/-! ### The results as numbers -/

/-- A difference of bytes wraps modulo 256. -/
theorem byte_sub_toNat (p q : Byte) : ((p - q).toNat : Int) = (p.toNat - q.toNat : Int) % 256 := by
  have := p.isLt
  have := q.isLt
  rw [BitVec.toNat_sub]
  omega

theorem byte_shiftRight_one_toNat (p : Byte) : (p >>> 1).toNat = p.toNat / 2 := by
  rw [BitVec.toNat_ushiftRight, Nat.shiftRight_eq_div_pow, pow_one]

theorem byte_shiftLeft_one_toNat (p : Byte) : (p <<< 1).toNat = p.toNat * 2 % 256 := by
  rw [BitVec.toNat_shiftLeft, Nat.shiftLeft_eq, pow_one]

/-! ### Random (R151) -/

theorem State.rnd_driven {s : State} {r : Byte} (h : s.rndIn = some r) : s.rnd = r := by
  rw [State.rnd, h]

theorem State.rnd_free {s : State} (h : s.rndIn = none) : s.rnd = Config.rnd s.draws := by
  rw [State.rnd, h]

/-- A bit that is clear in the mask is clear in what it masks. -/
theorem getLsbD_and_eq_false {b mask : Byte} {k : Nat} (h : mask.getLsbD k = false) : (b &&& mask).getLsbD k = false := by
  rw [BitVec.getLsbD_and, h, Bool.and_false]

end Machine

open Machine

/-- Settles O30: the words are those of the three instructions, and each meaning is one register write. -/
theorem logicIsBitwiseWithoutFlag : Obligations.LogicIsBitwiseWithoutFlag := by
  unfold Obligations.LogicIsBitwiseWithoutFlag
  intro x y s
  refine ⟨decode_encode (.orReg x y), decode_encode (.andReg x y), decode_encode (.xorReg x y), ?or, ?and, ?xor⟩
  case or =>
    obtain ⟨t, hnext, hreg, hpc, hframe⟩ := writesReg_of_setReg (exec_orReg x y s)
    refine ⟨t, hnext, hpc, hframe, fun k => by rw [hreg, BitVec.getLsbD_or], ?_⟩
    rintro rfl
    rw [hreg, BitVec.or_self]
  case and =>
    obtain ⟨t, hnext, hreg, hpc, hframe⟩ := writesReg_of_setReg (exec_andReg x y s)
    refine ⟨t, hnext, hpc, hframe, fun k => by rw [hreg, BitVec.getLsbD_and], ?_⟩
    rintro rfl
    rw [hreg, BitVec.and_self]
  case xor =>
    obtain ⟨t, hnext, hreg, hpc, hframe⟩ := writesReg_of_setReg (exec_xorReg x y s)
    refine ⟨t, hnext, hpc, hframe, fun k => by rw [hreg, BitVec.getLsbD_xor], ?_⟩
    rintro rfl
    exact hreg.trans BitVec.xor_self

/-- Settles O31: the result is a sum of bytes, which wraps modulo 256. -/
theorem addRegSumsAndCarries : Obligations.AddRegSumsAndCarries := by
  unfold Obligations.AddRegSumsAndCarries
  intro x y s
  obtain ⟨t, hnext, hflag, hreg, hpc, hframe⟩ := writesResult_of_setResultThenFlag (exec_addReg x y s)
  exact ⟨t, hnext, hflag.trans (carryFlag_eq _ _), fun hx => by rw [hreg hx, BitVec.toNat_add], hpc, hframe⟩

/-- Settles O32: both results are differences of bytes, with the operands exchanged. -/
theorem subtractionsWrapAndReportNoBorrow : Obligations.SubtractionsWrapAndReportNoBorrow := by
  unfold Obligations.SubtractionsWrapAndReportNoBorrow
  intro x y s
  refine ⟨?sub, ?subN⟩
  case sub =>
    obtain ⟨t, hnext, hflag, hreg, hpc, hframe⟩ := writesResult_of_setResultThenFlag (exec_sub x y s)
    exact ⟨t, hnext, hflag.trans (noBorrowFlag_eq _ _), fun hx => by rw [hreg hx, byte_sub_toNat], hpc, hframe⟩
  case subN =>
    obtain ⟨t, hnext, hflag, hreg, hpc, hframe⟩ := writesResult_of_setResultThenFlag (exec_subN x y s)
    exact ⟨t, hnext, hflag.trans (noBorrowFlag_eq _ _), fun hx => by rw [hreg hx, byte_sub_toNat], hpc, hframe⟩

/-- Settles O33: the results are halves and doubles, and the flag is the bit that leaves at that end. -/
theorem shiftsMoveOneBitAndReportIt : Obligations.ShiftsMoveOneBitAndReportIt := by
  unfold Obligations.ShiftsMoveOneBitAndReportIt
  intro x y s
  refine ⟨?shr, ?shl⟩
  case shr =>
    obtain ⟨t, hnext, hflag, hreg, hpc, hframe⟩ := writesResult_of_setResultThenFlag (exec_shr x y s)
    exact ⟨t, hnext, hflag.trans (lowBitFlag_eq _), fun hx => by rw [hreg hx, byte_shiftRight_one_toNat], hpc, hframe⟩
  case shl =>
    obtain ⟨t, hnext, hflag, hreg, hpc, hframe⟩ := writesResult_of_setResultThenFlag (exec_shl x y s)
    exact ⟨t, hnext, hflag.trans (highBitFlag_eq _), fun hx => by rw [hreg hx, byte_shiftLeft_one_toNat], hpc, hframe⟩

/-- Settles O34: one register write, of the masked input, and the count of draws. -/
theorem randomIsTheMaskedInput : Obligations.RandomIsTheMaskedInput := by
  unfold Obligations.RandomIsTheMaskedInput
  intro x kk s
  have hnext := exec_random x kk s
  have hreg : State.reg { s.advance.setReg x (s.rnd &&& kk) with draws := s.draws + 1 } x = s.rnd &&& kk :=
    s.advance.reg_setReg_self x _
  refine ⟨_, hnext, fun r hdriven => ?driven, fun hfree => ?free, fun k hclear => ?masked, s.advance_pc, rfl,
    exec_frame hnext⟩
  case driven => rw [hreg, State.rnd_driven hdriven]
  case free => rw [hreg, State.rnd_free hfree]
  case masked => rw [hreg, getLsbD_and_eq_false hclear]

end Sys2Proof
end

section
/-!
The proofs about the index register and the transfers through it (43_index_memory.md): AddIndex and LoadFont are one write
of `I`; StoreBCD, StoreRegs and LoadRegs pass the range check and move bytes.
-/

namespace Sys2Proof
namespace Machine

/-! ### A byte stored is a byte read -/

/-- The `k`-th byte of a store at `I`, where memory reaches that far. -/
theorem State.byteAt_storeAtIndex (s : State) {bs : List Byte} {k : Nat} (hk : k < bs.length)
    (hrange : s.index.toNat + k ≤ 0xFFF) : (s.storeAtIndex bs).byteAt (s.index.toNat + k) = bs.getD k 0 := by
  have inside : s.index.toNat + k < Config.memSize := Nat.lt_succ_of_le hrange
  rw [State.byteAt, State.storeAtIndex_mem, readByte_writeBytes, if_pos ⟨by omega, by omega, inside⟩,
    Nat.add_sub_cancel_left]

/-- The three digits are bytes that hold them. -/
theorem bcdDigits_toNat (b : Byte) : ((bcdDigits b).getD 0 0).toNat = b.toNat / 100 ∧
    ((bcdDigits b).getD 1 0).toNat = b.toNat / 10 % 10 ∧ ((bcdDigits b).getD 2 0).toNat = b.toNat % 10 := by
  have := b.isLt
  simp only [bcdDigits, List.getD_cons_zero, List.getD_cons_succ, BitVec.toNat_ofNat]
  omega

/-- StoreRegs leaves `V[k]` at `I + k`. -/
theorem State.byteAt_storeRegs (s : State) {x k : Nibble} (hk : k ≤ x) (hrange : s.index.toNat + x.toNat ≤ 0xFFF) :
    (s.storeAtIndex (s.regsUpTo x)).byteAt (s.index.toNat + k.toNat) = s.reg k := by
  have hkx : k.toNat ≤ x.toNat := BitVec.le_def.mp hk
  rw [State.byteAt_storeAtIndex s (by rw [State.regsUpTo_length]; omega) (by omega), State.regsUpTo_getD s x k hkx]

/-! ### The transfers in range -/

theorem exec_storeBCD_inRange {x : Nibble} {s : State} (h : s.index.toNat + 2 ≤ 0xFFF) :
    exec (.storeBCD x) s = .next (s.advance.storeAtIndex (bcdDigits (s.reg x))) :=
  (exec_storeBCD x s).trans (State.guardRange_inRange _ (by omega))

theorem exec_storeRegs_inRange {x : Nibble} {s : State} (h : s.index.toNat + x.toNat ≤ 0xFFF) :
    exec (.storeRegs x) s = .next (s.advance.storeAtIndex (s.regsUpTo x)) :=
  (exec_storeRegs x s).trans (State.guardRange_inRange _ (by omega))

theorem exec_loadRegs_inRange {x : Nibble} {s : State} (h : s.index.toNat + x.toNat ≤ 0xFFF) :
    exec (.loadRegs x) s = .next (s.advance.loadFromIndex x) :=
  (exec_loadRegs x s).trans (State.guardRange_inRange _ (by omega))

/-- A StoreRegs that answers a next state was in range. -/
theorem exec_storeRegs_next {x : Nibble} {s t : State} (h : exec (.storeRegs x) s = .next t) :
    s.index.toNat + x.toNat ≤ 0xFFF ∧ t = s.advance.storeAtIndex (s.regsUpTo x) := by
  obtain ⟨hrange, hnext⟩ := State.guardRange_next.mp h
  cases hnext
  exact ⟨by omega, rfl⟩

/-! ### The transfers out of range -/

/-- A transfer that overruns stops with code 3 and the lowest address above 0xFFF it would reach. -/
theorem State.guardRange_fault {s : State} {n : Nat} (r : Result) (h : 0 < n ∧ 0x1000 < s.index.toNat + n) :
    ∃ f, s.guardRange n r = .fault f ∧ faultCode f = 3 ∧ faultInfo f = max s.index.toNat 0x1000 :=
  ⟨_, State.guardRange_overrun r h, rfl, s.firstOutOfRange_toNat⟩

/-! ### A store and the load that follows it -/

/-- The registers after a load of no more registers than were stored at the same `I`. -/
theorem State.reg_load_of_store {s : State} {x y : Nibble} (hyx : y ≤ x) (hrange : s.index.toNat + x.toNat ≤ 0xFFF)
    (k : Nibble) : ((s.storeAtIndex (s.regsUpTo x)).loadFromIndex y).reg k = s.reg k := by
  rw [State.reg_loadFromIndex]
  split
  · next hk => exact s.byteAt_storeRegs (BitVec.le_trans (BitVec.le_def.mpr hk) hyx) hrange
  · rfl

end Machine

open Machine

/-- Settles O36: one write of `I`, of a sum of words, which wraps modulo 65536. -/
theorem addIndexWrapsAtSixteenBits : Obligations.AddIndexWrapsAtSixteenBits := by
  unfold Obligations.AddIndexWrapsAtSixteenBits
  intro x s
  obtain ⟨t, hnext, hindex, hpc, hframe⟩ := writesIndex_of_setIndex (exec_addIndex x s)
  have hsum : t.index.toNat = (s.index.toNat + (s.reg x).toNat) % 65536 := by
    rw [hindex, BitVec.toNat_add, zextByte_toNat]
  exact ⟨t, hnext, hsum, hpc, hframe⟩

/-- Settles O37: one write of `I`, of an address that does not wrap. -/
theorem loadFontPointsAtTheGlyph : Obligations.LoadFontPointsAtTheGlyph := by
  unfold Obligations.LoadFontPointsAtTheGlyph
  intro x s
  obtain ⟨t, hnext, hindex, hpc, hframe⟩ := writesIndex_of_setIndex (exec_loadFont x s)
  exact ⟨t, hnext, by rw [hindex, glyphAddress_toNat], hpc, hframe⟩

/-- Settles O38: the range check passes the store of the three digits. -/
theorem storeBCDStoresThreeDigits : Obligations.StoreBCDStoresThreeDigits := by
  unfold Obligations.StoreBCDStoresThreeDigits
  intro x s hrange
  have hnext := exec_storeBCD_inRange (x := x) hrange
  have stored {k : Nat} (hk : k < 3) := s.advance.byteAt_storeAtIndex (bs := bcdDigits (s.reg x)) (k := k) hk
    (by rw [State.advance_index]; omega)
  obtain ⟨hundreds, tens, ones⟩ := bcdDigits_toNat (s.reg x)
  exact ⟨_, hnext, (congrArg BitVec.toNat (stored (k := 0) (by decide))).trans hundreds,
    (congrArg BitVec.toNat (stored (k := 1) (by decide))).trans tens,
    (congrArg BitVec.toNat (stored (k := 2) (by decide))).trans ones, rfl, exec_frame hnext⟩

/-- Settles O39: the range check passes the store of the registers. -/
theorem storeRegsStoresVZeroToVx : Obligations.StoreRegsStoresVZeroToVx := by
  unfold Obligations.StoreRegsStoresVZeroToVx
  intro x s hrange
  have hnext := exec_storeRegs_inRange hrange
  exact ⟨_, hnext, fun k hk => s.advance.byteAt_storeRegs hk hrange, rfl, exec_frame hnext⟩

/-- Settles O40: the range check passes the load of the registers. -/
theorem loadRegsLoadsVZeroToVx : Obligations.LoadRegsLoadsVZeroToVx := by
  unfold Obligations.LoadRegsLoadsVZeroToVx
  intro x s hrange
  have hnext := exec_loadRegs_inRange hrange
  refine ⟨_, hnext, fun k hk => ?_, rfl, exec_frame hnext⟩
  rw [State.reg_loadFromIndex, if_pos (BitVec.le_def.mp hk)]
  rfl

/-- Settles O41: each of the four is guarded by the range check for the bytes it would move. -/
theorem overrunningTransfersFault : Obligations.OverrunningTransfersFault := by
  unfold Obligations.OverrunningTransfersFault
  intro x y n s
  refine ⟨fun hn hover => ?draw, fun hover => ?storeBCD, fun hover => ?storeRegs, fun hover => ?loadRegs⟩
  case draw =>
    have hpos : 0 < n.toNat := Nat.pos_of_ne_zero fun h0 => hn (BitVec.eq_of_toNat_eq h0)
    exact State.guardRange_fault _ (by omega)
  case storeBCD => exact State.guardRange_fault _ (by omega)
  case storeRegs => exact State.guardRange_fault _ (by omega)
  case loadRegs => exact State.guardRange_fault _ (by omega)

/-- Settles O42: the load finds the stored registers, and the registers it does not load are as before. -/
theorem storeThenLoadRegsGivesThemBack : Obligations.StoreThenLoadRegsGivesThemBack := by
  unfold Obligations.StoreThenLoadRegsGivesThemBack
  intro x y s hyx hrange
  have hyx' : y.toNat ≤ x.toNat := BitVec.le_def.mp hyx
  have hstore := exec_storeRegs_inRange hrange
  have hload := exec_loadRegs_inRange (x := y) (s := s.advance.storeAtIndex (s.regsUpTo x))
    (by rw [State.storeAtIndex_index, State.advance_index]; omega)
  have hreg : ∀ k, State.reg _ k = s.reg k := s.advance.reg_load_of_store hyx hrange
  have hpc : s.pc + 2 + 2 = s.pc + 4 := by rw [BitVec.add_assoc]; rfl
  refine ⟨_, _, hstore, hload, hreg, hpc, ?frame⟩
  intro p hp
  cases p with
  | reg k => exact congrArg Seen.byte (hreg k)
  | pc => exact absurd (.inr rfl) hp
  | _ => exact (exec_frame hload _ (by rintro (⟨_, _, h⟩ | h) <;> cases h)).trans (exec_frame hstore _ hp)

/-- Settles O43: the two bytes at `pc` are the stored `V[k]` and `V[k + 1]`. -/
theorem storedBytesAreFetched : Obligations.StoredBytesAreFetched := by
  unfold Obligations.StoredBytesAreFetched
  intro x k l s t hnext hlx hkl hpc
  have hlx' : l.toNat ≤ x.toNat := BitVec.le_def.mp hlx
  have hkx : k ≤ x := BitVec.le_def.mpr (by omega)
  obtain ⟨hrange, rfl⟩ := exec_storeRegs_next hnext
  have high := s.advance.byteAt_storeRegs hkx hrange
  have low := s.advance.byteAt_storeRegs hlx hrange
  rw [State.fetch_inRange (by omega), hpc, Nat.add_assoc, hkl]
  exact congrArg some (congrArg₂ opcodeOfBytes high low)

end Sys2Proof
end

section
/-!
The proofs about the framebuffer (44_display.md): ClearScreen, and Draw by the specification of the sprite datapath, with
its rows read as the sprite of `spritePixel`.
-/

namespace Sys2Proof
namespace Machine

/-! ### A cleared screen -/

theorem cellOf_cleared (k : Nat) : cellOf (Vector.replicate 32 0) k = false := by
  by_cases hrow : k / 64 < 32
  · simp [cellOf, hrow]
  · exact cellOf_outside _ (by omega)

/-! ### The sprite a Draw reads -/

theorem State.bytesAtIndex_length (s : State) (n : Nat) : (s.bytesAtIndex n).length = n := by
  rw [State.bytesAtIndex, List.length_map, List.length_range]

theorem State.bytesAtIndex_getD (s : State) {n k : Nat} (hk : k < n) :
    (s.bytesAtIndex n).getD k 0 = s.byteAt (s.index.toNat + k) := by
  rw [State.bytesAtIndex, List.getD_eq_getElem?_getD, List.getElem?_map, List.getElem?_range hk]
  rfl

/-- The rows that a Draw reads make the sprite that it draws. -/
theorem rowsPixel_iff_spritePixel (s : State) (x y n : Nibble) (cx cy : Nat) :
    rowsPixel (s.bytesAtIndex n.toNat) (s.anchorColumn x) (s.anchorRow y) cx cy ↔ spritePixel s x y n cx cy := by
  unfold rowsPixel spritePixel
  rw [State.bytesAtIndex_length]
  refine and_congr_right fun _ => and_congr_right fun hrows => ?_
  rw [State.bytesAtIndex_getD s (by omega)]
  rfl

/-- Two draws of the same bytes at anchors that agree on the grid draw the same sprite. -/
theorem spritePixel_congr {s u : State} {x y x' y' n : Nibble} (hindex : u.index = s.index)
    (hcolumn : (u.reg x').toNat % 64 = (s.reg x).toNat % 64) (hrow : (u.reg y').toNat % 32 = (s.reg y).toNat % 32)
    (hbytes : ∀ r, r < n.toNat → u.byteAt (s.index.toNat + r) = s.byteAt (s.index.toNat + r)) (cx cy : Nat) :
    spritePixel u x' y' n cx cy ↔ spritePixel s x y n cx cy := by
  unfold spritePixel
  rw [hindex, hcolumn, hrow]
  refine and_congr_right fun _ => and_congr_right fun hrows => ?_
  rw [hbytes _ (by omega)]

/-! ### What a Draw does to the grid and to the flag -/

theorem State.afterDraw_cell (s : State) (x y n : Nibble) {cx cy : Nat} (hcx : cx < 64) (hcy : cy < 32) :
    (s.afterDraw x y n).cell (cy * 64 + cx) = true ↔
      (s.cell (cy * 64 + cx) = true ↔ ¬ spritePixel s x y n cx cy) := by
  have hcells := (Canvas.drawRows_spec ⟨s.fb, false⟩ (s.bytesAtIndex n.toNat) (s.anchorColumn x) (s.anchorRow y)).1
  rw [← rowsPixel_iff_spritePixel]
  exact hcells cx cy hcx hcy

theorem State.drawn_collision (s : State) (x y n : Nibble) : (s.drawn x y n).collision = true ↔
    ∃ cx cy, cx < 64 ∧ cy < 32 ∧ spritePixel s x y n cx cy ∧ s.cell (cy * 64 + cx) = true := by
  have hflag := (Canvas.drawRows_spec ⟨s.fb, false⟩ (s.bytesAtIndex n.toNat) (s.anchorColumn x) (s.anchorRow y)).2
  simp only [rowsPixel_iff_spritePixel, Bool.false_eq_true, false_or] at hflag
  exact hflag

theorem State.afterDraw_flag (s : State) (x y n : Nibble) :
    (s.afterDraw x y n).reg 15 = flagByte (s.drawn x y n).collision :=
  s.advance.reg_setReg_self 15 _

/-- A pixel of the sprite toggles its cell. -/
theorem State.afterDraw_cell_of_pixel {s : State} {x y n : Nibble} {cx cy : Nat} (hcx : cx < 64) (hcy : cy < 32)
    (hpixel : spritePixel s x y n cx cy) : (s.afterDraw x y n).cell (cy * 64 + cx) = !s.cell (cy * 64 + cx) := by
  rw [Bool.eq_iff_iff, s.afterDraw_cell x y n hcx hcy]
  simp [hpixel]

/-- A cell that is no pixel of the sprite is left. -/
theorem State.afterDraw_cell_of_not_pixel {s : State} {x y n : Nibble} {cx cy : Nat} (hcx : cx < 64) (hcy : cy < 32)
    (hpixel : ¬ spritePixel s x y n cx cy) : (s.afterDraw x y n).cell (cy * 64 + cx) = s.cell (cy * 64 + cx) := by
  rw [Bool.eq_iff_iff, s.afterDraw_cell x y n hcx hcy]
  simp [hpixel]

/-- Drawn twice, a sprite leaves every cell of the grid as it was. -/
theorem State.afterDraw_twice_cell {s u : State} {x y x' y' n : Nibble} (hfb : u.fb = (s.afterDraw x y n).fb)
    (hsame : ∀ cx cy, spritePixel u x' y' n cx cy ↔ spritePixel s x y n cx cy) {k : Nat} (hk : k < 2048) :
    (u.afterDraw x' y' n).cell k = s.cell k := by
  obtain ⟨cx, cy, hcx, hcy, rfl⟩ : ∃ cx cy, cx < 64 ∧ cy < 32 ∧ k = cy * 64 + cx :=
    ⟨k % 64, k / 64, by omega, by omega, by omega⟩
  have between : u.cell (cy * 64 + cx) = (s.afterDraw x y n).cell (cy * 64 + cx) := State.cell_congr hfb _
  by_cases hpixel : spritePixel s x y n cx cy
  · rw [State.afterDraw_cell_of_pixel hcx hcy ((hsame cx cy).mpr hpixel), between,
      State.afterDraw_cell_of_pixel hcx hcy hpixel, Bool.not_not]
  · rw [State.afterDraw_cell_of_not_pixel hcx hcy (fun h => hpixel ((hsame cx cy).mp h)), between,
      State.afterDraw_cell_of_not_pixel hcx hcy hpixel]

end Machine

open Machine

/-- Settles O44: the word is that of `encodeXKK` whatever the nibble, and the rows are replaced by zeros. -/
theorem clearScreenClearsEveryCell : Obligations.ClearScreenClearsEveryCell := by
  unfold Obligations.ClearScreenClearsEveryCell
  intro z s
  have hnext := exec_clearScreen s
  exact ⟨decode_encodeXKK_zero_E0 z, _, hnext, fun k _ => cellOf_cleared k, rfl, exec_frame hnext⟩

/-- Settles O45: the range check passes, and the sprite datapath toggles the pixels of the sprite and says whether it met
a cell that was 1. -/
theorem drawTogglesExactlyTheSprite : Obligations.DrawTogglesExactlyTheSprite := by
  unfold Obligations.DrawTogglesExactlyTheSprite
  intro x y n s hrange
  have inRange : n.toNat = 0 ∨ s.index.toNat + n.toNat ≤ 0x1000 :=
    hrange.elim (fun h0 => .inl (congrArg BitVec.toNat h0)) fun h => by omega
  have hnext := (exec_draw x y n s).trans (State.guardRange_inRange _ inRange)
  refine ⟨_, hnext, fun cx cy hcx hcy => ?cells, fun hlit => ?collides, fun hnone => ?clear, rfl, exec_frame hnext⟩
  case cells => exact ⟨State.afterDraw_cell_of_pixel hcx hcy, State.afterDraw_cell_of_not_pixel hcx hcy⟩
  case collides =>
    rw [s.afterDraw_flag, (s.drawn_collision x y n).mpr hlit]
    rfl
  case clear =>
    rw [s.afterDraw_flag, Bool.eq_false_iff.mpr (mt (s.drawn_collision x y n).mp hnone)]
    rfl

/-- Settles O46: the second sprite is the first, so each of its pixels is toggled twice; what the second draw meets is
what the first left. -/
theorem drawTwiceRestoresTheScreen : Obligations.DrawTwiceRestoresTheScreen := by
  unfold Obligations.DrawTwiceRestoresTheScreen
  intro x y x' y' n s t u w hfirst hfb hindex hcolumn hrow hbytes hsecond
  obtain rfl := exec_draw_next hfirst
  obtain rfl := exec_draw_next hsecond
  have hsame := spritePixel_congr hindex hcolumn hrow hbytes
  refine ⟨fun k hk => State.afterDraw_twice_cell hfb hsame hk, ?_⟩
  rintro ⟨cx, cy, hcx, hcy, hpixel, hlit⟩
  have hmet : u.cell (cy * 64 + cx) = true := (State.cell_congr hfb _).trans hlit
  rw [u.afterDraw_flag, (u.drawn_collision x' y' n).mpr ⟨cx, cy, hcx, hcy, (hsame cx cy).mpr hpixel, hmet⟩]
  rfl

end Sys2Proof
end

section
/-!
The proofs about the keypad and timer instructions (45_keypad_timers.md).
-/

namespace Sys2Proof
namespace Machine

/-! ### The key check -/

theorem State.withKey_of_lt {s : State} {x : Nibble} (use : Bool → Result) (h : (s.reg x).toNat < 16) :
    s.withKey x use = use s.keypad[(s.reg x).toNat] := dif_pos h

theorem State.withKey_of_gt {s : State} {x : Nibble} (use : Bool → Result) (h : 15 < (s.reg x).toNat) :
    s.withKey x use = .fault (.keyIndex (s.reg x)) := dif_neg (by omega)

theorem exec_skipKeyPressed_of_lt {x : Nibble} {s : State} (h : (s.reg x).toNat < 16) :
    exec (.skipKeyPressed x) s = .next (s.advance.skipIf s.keypad[(s.reg x).toNat]) :=
  (exec_skipKeyPressed x s).trans (State.withKey_of_lt _ h)

theorem exec_skipKeyNotPressed_of_lt {x : Nibble} {s : State} (h : (s.reg x).toNat < 16) :
    exec (.skipKeyNotPressed x) s = .next (s.advance.skipIf (!s.keypad[(s.reg x).toNat])) :=
  (exec_skipKeyNotPressed x s).trans (State.withKey_of_lt _ h)

theorem exec_skipKeyPressed_of_gt {x : Nibble} {s : State} (h : 15 < (s.reg x).toNat) :
    exec (.skipKeyPressed x) s = .fault (.keyIndex (s.reg x)) :=
  (exec_skipKeyPressed x s).trans (State.withKey_of_gt _ h)

theorem exec_skipKeyNotPressed_of_gt {x : Nibble} {s : State} (h : 15 < (s.reg x).toNat) :
    exec (.skipKeyNotPressed x) s = .fault (.keyIndex (s.reg x)) :=
  (exec_skipKeyNotPressed x s).trans (State.withKey_of_gt _ h)

/-! ### What a WaitKey leaves and reports -/

/-- A WaitKey stalls exactly with no key latched. -/
theorem State.stalls_of_waitKey {s : State} {x : Nibble} (h : s.decoded = some (.defined (.waitKey x))) :
    s.stalls = s.pendingKey.isNone := by
  rw [State.stalls, h]

theorem cycleOutcome_of_next {s t : State} (h : cycle s = .next t) :
    cycleOutcome s = if s.stalls then .waitingForKey else .normal := by
  rw [cycleOutcome, h]

end Machine

open Machine

/-- Settles O47: the key check passes, and the instruction is one skip on the key's state or on its negation. -/
theorem keySkipsReadTheKeypad : Obligations.KeySkipsReadTheKeypad := by
  unfold Obligations.KeySkipsReadTheKeypad
  intro x s hkey
  refine ⟨⟨_, exec_skipKeyPressed_of_lt hkey, s.advance_skipIf_pc _, s.advance_skipIf_frame _⟩,
    ⟨_, exec_skipKeyNotPressed_of_lt hkey, ?_, s.advance_skipIf_frame _⟩⟩
  rw [State.advance_skipIf_pc]
  cases s.keypad[(s.reg x).toNat] with
  | true => rfl
  | false => rfl

/-- Settles O48: the key check fails. -/
theorem keySkipsFaultAboveFifteen : Obligations.KeySkipsFaultAboveFifteen := by
  unfold Obligations.KeySkipsFaultAboveFifteen
  intro x s hkey
  exact ⟨⟨_, exec_skipKeyPressed_of_gt hkey, rfl, rfl⟩, ⟨_, exec_skipKeyNotPressed_of_gt hkey, rfl, rfl⟩⟩

/-- Settles O49: the roll-back undoes the advance of a stalled WaitKey; a latched key is written and cleared. -/
theorem waitKeyStallsOrConsumesTheLatch : Obligations.WaitKeyStallsOrConsumesTheLatch := by
  unfold Obligations.WaitKeyStallsOrConsumesTheLatch
  intro x s
  refine ⟨decode_encode (.waitKey x), fun hkey => ?stalled, fun k hkey => ?latched⟩
  case stalled =>
    refine ⟨exec_waitKey_stalled x hkey, fun hdecoded => ?_⟩
    have hcycle : cycle s = .next s := (cycle_of_defined hdecoded).trans (exec_waitKey_stalled x hkey)
    refine ⟨hcycle, ?_⟩
    rw [cycleOutcome_of_next hcycle, State.stalls_of_waitKey hdecoded, hkey]
    rfl
  case latched =>
    have hnext := exec_waitKey_latched x hkey
    have hreg : (s.advance.setReg x (zextKey k)).reg x = zextKey k := State.reg_setReg_self _ x _
    refine ⟨⟨_, hnext, ?_, rfl, rfl, exec_frame hnext⟩, fun hdecoded => ?_⟩
    · exact (congrArg BitVec.toNat hreg).trans (zextKey_toNat k)
    · rw [cycleOutcome_of_next ((cycle_of_defined hdecoded).trans hnext), State.stalls_of_waitKey hdecoded, hkey]
      rfl

/-- Settles O50: one register write, of `DT`. -/
theorem loadDelayReadsDT : Obligations.LoadDelayReadsDT := by
  unfold Obligations.LoadDelayReadsDT
  intro x s
  exact writesReg_of_setReg (exec_loadDelay x s)

/-- Settles O51: one write of a timer each. -/
theorem timerInstructionsWriteTheirTimer : Obligations.TimerInstructionsWriteTheirTimer := by
  unfold Obligations.TimerInstructionsWriteTheirTimer
  intro x s
  have hdelay := exec_fSetDelay x s
  have hsound := exec_fSetSound x s
  exact ⟨⟨_, hdelay, rfl, rfl, exec_frame hdelay⟩, ⟨_, hsound, rfl, rfl, exec_frame hsound⟩⟩

end Sys2Proof
end

section
/-!
The proofs about what every instruction has in common (10_state.md R22, 42_alu.md R151, 60_exceptions.md R220): who writes
the flag, who reads the `rnd` input, who raises which fault.
-/

namespace Sys2Proof
namespace Machine

/-! ### Reading a frame backwards -/

/-- A part that is seen to differ is one that the frame names. -/
theorem OnlyChanges.names {c : Part → Prop} {s t : State} (h : OnlyChanges c s t) {p : Part}
    (hp : observe t p ≠ observe s p) : c p :=
  not_not.mp (mt (h p) hp)

/-! ### The range check and the key check, when they fail -/

/-- The range check fails only with MemoryBounds, on a transfer that overruns. -/
theorem State.guardRange_eq_fault {s u : State} {n : Nat} {f : Fault} (h : s.guardRange n (.next u) = .fault f) :
    (0 < n ∧ 0x1000 < s.index.toNat + n) ∧ faultCode f = 3 ∧ faultInfo f = max s.index.toNat 0x1000 := by
  by_cases hover : 0 < n ∧ 0x1000 < s.index.toNat + n
  · rw [State.guardRange_overrun _ hover] at h
    cases h
    exact ⟨hover, rfl, s.firstOutOfRange_toNat⟩
  · rw [State.guardRange_inRange _ (by omega)] at h
    cases h

/-- The key check of a skip fails only with KeyIndex, on a value above 15. -/
theorem exec_keySkip_fault {x : Nibble} (g : Bool → Bool) {s : State} {f : Fault}
    (h : s.withKey x (fun pressed => .next (s.advance.skipIf (g pressed))) = .fault f) :
    15 < (s.reg x).toNat ∧ f = .keyIndex (s.reg x) := by
  rcases s.withKey_cases x (fun pressed => .next (s.advance.skipIf (g pressed))) with ⟨_, heq⟩ | ⟨hkey, heq⟩
  · rw [heq] at h
    cases h
  · rw [heq] at h
    cases h
    exact ⟨hkey, rfl⟩

theorem exec_call_fault {nnn : Addr12} {s : State} {f : Fault} (h : exec (.call nnn) s = .fault f) :
    s.sp.val = 16 ∧ f = .stackOverflow s.pc := by
  by_cases hsp : s.sp.val < 16
  · rw [exec_call_of_lt nnn hsp] at h
    cases h
  · have hfull : s.sp.val = 16 := by have := s.sp.isLt; omega
    rw [exec_call_full nnn hfull] at h
    cases h
    exact ⟨hfull, rfl⟩

theorem exec_ret_fault {s : State} {f : Fault} (h : exec .ret s = .fault f) :
    s.sp.val = 0 ∧ f = .stackUnderflow s.pc := by
  by_cases hsp : 0 < s.sp.val
  · rw [exec_ret_of_pos hsp] at h
    cases h
  · have hempty : s.sp.val = 0 := by omega
    rw [exec_ret_empty hempty] at h
    cases h
    exact ⟨hempty, rfl⟩

theorem exec_waitKey_ne_fault (x : Nibble) (s : State) (f : Fault) : exec (.waitKey x) s ≠ .fault f := by
  cases hkey : s.pendingKey with
  | none => rw [exec_waitKey_stalled x hkey]; nofun
  | some k => rw [exec_waitKey_latched x hkey]; nofun

/-! ### The `rnd` input does not matter to the shared operations -/

/-- The state with another byte, or none, driven on the `rnd` input. -/
def State.withRnd (s : State) (r : Option Byte) : State := { s with rndIn := r }

theorem State.skipIf_withRnd (s : State) (c : Bool) (r : Option Byte) :
    (s.withRnd r).skipIf c = (s.skipIf c).withRnd r := by
  cases c with
  | true => rfl
  | false => rfl

theorem State.guardRange_withRnd (s : State) (n : Nat) (r : Option Byte) (a : Result) :
    (s.withRnd r).guardRange n (restoreRnd r a) = restoreRnd r (s.guardRange n a) := by
  by_cases hover : 0 < n ∧ 0x1000 < s.index.toNat + n
  · rw [State.guardRange_overrun a hover]
    exact State.guardRange_overrun (s := s.withRnd r) _ hover
  · have hrange : n = 0 ∨ s.index.toNat + n ≤ 0x1000 := by omega
    rw [State.guardRange_inRange a hrange]
    exact State.guardRange_inRange (s := s.withRnd r) _ hrange

theorem State.withKey_withRnd (s : State) (x : Nibble) (r : Option Byte) (use : Bool → Result) :
    (s.withRnd r).withKey x (fun pressed => restoreRnd r (use pressed)) = restoreRnd r (s.withKey x use) := by
  by_cases hkey : (s.reg x).toNat < 16
  · rw [State.withKey_of_lt use hkey]
    exact State.withKey_of_lt (s := s.withRnd r) _ hkey
  · have habove : 15 < (s.reg x).toNat := by omega
    rw [State.withKey_of_gt use habove]
    exact State.withKey_of_gt (s := s.withRnd r) _ habove

/-- A keypad skip under another `rnd` input. -/
theorem State.keySkip_withRnd (s : State) (x : Nibble) (r : Option Byte) (f : Bool → Bool) :
    (s.withRnd r).withKey x (fun pressed => .next ((s.withRnd r).advance.skipIf (f pressed))) =
      restoreRnd r (s.withKey x fun pressed => .next (s.advance.skipIf (f pressed))) := by
  have hskip (c : Bool) : (s.withRnd r).advance.skipIf c = (s.advance.skipIf c).withRnd r :=
    s.advance.skipIf_withRnd c r
  simp only [hskip]
  exact s.withKey_withRnd x r fun pressed => .next (s.advance.skipIf (f pressed))

theorem exec_call_withRnd (nnn : Addr12) (s : State) (r : Option Byte) :
    exec (.call nnn) (s.withRnd r) = restoreRnd r (exec (.call nnn) s) := by
  by_cases hsp : s.sp.val < 16
  · rw [exec_call_of_lt nnn hsp]
    exact exec_call_of_lt nnn (s := s.withRnd r) hsp
  · have hfull : s.sp.val = 16 := by have := s.sp.isLt; omega
    rw [exec_call_full nnn hfull]
    exact exec_call_full nnn (s := s.withRnd r) hfull

theorem exec_ret_withRnd (s : State) (r : Option Byte) : exec .ret (s.withRnd r) = restoreRnd r (exec .ret s) := by
  by_cases hsp : 0 < s.sp.val
  · rw [exec_ret_of_pos hsp]
    exact exec_ret_of_pos (s := s.withRnd r) hsp
  · have hempty : s.sp.val = 0 := by omega
    rw [exec_ret_empty hempty]
    exact exec_ret_empty (s := s.withRnd r) hempty

theorem exec_waitKey_withRnd (x : Nibble) (s : State) (r : Option Byte) :
    exec (.waitKey x) (s.withRnd r) = restoreRnd r (exec (.waitKey x) s) := by
  cases hkey : s.pendingKey with
  | none =>
    rw [exec_waitKey_stalled x hkey]
    exact exec_waitKey_stalled x (s := s.withRnd r) hkey
  | some k =>
    rw [exec_waitKey_latched x hkey]
    exact exec_waitKey_latched x (s := s.withRnd r) hkey

/-- Only Random reads the `rnd` input. -/
theorem exec_withRnd {i : Instr} (s : State) (r : Option Byte) (hi : ∀ x kk, i ≠ .random x kk) :
    exec i (s.withRnd r) = restoreRnd r (exec i s) := by
  cases i with
  | random x kk => exact absurd rfl (hi x kk)
  | call nnn => exact exec_call_withRnd nnn s r
  | ret => exact exec_ret_withRnd s r
  | waitKey x => exact exec_waitKey_withRnd x s r
  | skipEqImm | skipNeImm | skipEqReg | skipNeReg => exact congrArg Host.Outcome.next (s.advance.skipIf_withRnd _ r)
  | skipKeyPressed x => exact s.keySkip_withRnd x r id
  | skipKeyNotPressed x => exact s.keySkip_withRnd x r not
  | draw x y n => exact s.guardRange_withRnd n.toNat r (.next (s.afterDraw x y n))
  | storeBCD x => exact s.guardRange_withRnd 3 r (.next (s.advance.storeAtIndex (bcdDigits (s.reg x))))
  | storeRegs x => exact s.guardRange_withRnd (x.toNat + 1) r (.next (s.advance.storeAtIndex (s.regsUpTo x)))
  | loadRegs x => exact s.guardRange_withRnd (x.toNat + 1) r (.next (s.advance.loadFromIndex x))
  | clearScreen | jump | jumpOffset | loadImm | addImm | loadReg | orReg | andReg | xorReg | addReg | sub | shr | subN
  | shl | loadIndex | loadDelay | fSetDelay | fSetSound | addIndex | loadFont => rfl

end Machine

open Machine

/-- Settles O11: five operations can fail, the push, the pop, the range check and the key check of the two skips; every
other instruction answers a next state. -/
theorem eachInstructionHasItsOneFault : Obligations.EachInstructionHasItsOneFault := by
  unfold Obligations.EachInstructionHasItsOneFault
  intro i s f h
  cases i with
  | call nnn => exact .inl ⟨⟨nnn, rfl⟩, exec_call_fault h⟩
  | ret => exact .inr (.inl ⟨rfl, exec_ret_fault h⟩)
  | draw x y n =>
    obtain ⟨hover, hfault⟩ := State.guardRange_eq_fault h
    have hn : n ≠ 0 := by rintro rfl; exact absurd hover.1 (by decide)
    exact .inr (.inr (.inl ⟨.inl ⟨x, y, n, rfl, hn, by omega⟩, hfault⟩))
  | storeBCD x =>
    obtain ⟨hover, hfault⟩ := State.guardRange_eq_fault h
    exact .inr (.inr (.inl ⟨.inr (.inl ⟨x, rfl, by omega⟩), hfault⟩))
  | storeRegs x =>
    obtain ⟨hover, hfault⟩ := State.guardRange_eq_fault h
    exact .inr (.inr (.inl ⟨.inr (.inr ⟨x, .inl rfl, by omega⟩), hfault⟩))
  | loadRegs x =>
    obtain ⟨hover, hfault⟩ := State.guardRange_eq_fault h
    exact .inr (.inr (.inl ⟨.inr (.inr ⟨x, .inr rfl, by omega⟩), hfault⟩))
  | skipKeyPressed x => exact .inr (.inr (.inr ⟨x, .inl rfl, exec_keySkip_fault id h⟩))
  | skipKeyNotPressed x => exact .inr (.inr (.inr ⟨x, .inr rfl, exec_keySkip_fault not h⟩))
  | waitKey x => exact absurd h (exec_waitKey_ne_fault x s f)
  | clearScreen | jump | jumpOffset | skipEqImm | skipNeImm | skipEqReg | skipNeReg | loadImm | addImm | loadReg | orReg
  | andReg | xorReg | addReg | sub | shr | subN | shl | loadIndex | random | loadDelay | fSetDelay | fSetSound | addIndex
  | loadFont => cases h

/-- Settles O14: a changed `V[15]` is a part that the instruction's frame names. -/
theorem onlySixInstructionsWriteTheFlagUnnamed : Obligations.OnlySixInstructionsWriteTheFlagUnnamed := by
  unfold Obligations.OnlySixInstructionsWriteTheFlagUnnamed
  intro i s t h hne
  have hnamed : mayChange s i (.reg 15) := (exec_frame h).names (mt Seen.byte.inj hne)
  have destination {x : Nibble} {p : Prop} (hp : p → False) (hx : Part.reg 15 = .reg x ∨ p) : x = 15 :=
    hx.elim (fun heq => (Part.reg.inj heq).symm) fun h => (hp h).elim
  cases i with
  | addReg x y => exact .inl ⟨x, y, .inl rfl⟩
  | sub x y => exact .inl ⟨x, y, .inr (.inl rfl)⟩
  | shr x y => exact .inl ⟨x, y, .inr (.inr (.inl rfl))⟩
  | subN x y => exact .inl ⟨x, y, .inr (.inr (.inr (.inl rfl)))⟩
  | shl x y => exact .inl ⟨x, y, .inr (.inr (.inr (.inr rfl)))⟩
  | draw x y n => exact .inr (.inl ⟨x, y, n, rfl⟩)
  | loadImm x kk => obtain rfl := destination nofun hnamed; exact .inr (.inr (.inl ⟨kk, .inl rfl⟩))
  | addImm x kk => obtain rfl := destination nofun hnamed; exact .inr (.inr (.inl ⟨kk, .inr (.inl rfl)⟩))
  | random x kk =>
    obtain rfl := destination (by rintro (h | h) <;> cases h) hnamed
    exact .inr (.inr (.inl ⟨kk, .inr (.inr rfl)⟩))
  | loadReg x y => obtain rfl := destination nofun hnamed; exact .inr (.inr (.inr (.inl ⟨y, .inl rfl⟩)))
  | orReg x y => obtain rfl := destination nofun hnamed; exact .inr (.inr (.inr (.inl ⟨y, .inr (.inl rfl)⟩)))
  | andReg x y => obtain rfl := destination nofun hnamed; exact .inr (.inr (.inr (.inl ⟨y, .inr (.inr (.inl rfl))⟩)))
  | xorReg x y => obtain rfl := destination nofun hnamed; exact .inr (.inr (.inr (.inl ⟨y, .inr (.inr (.inr rfl))⟩)))
  | loadDelay x => obtain rfl := destination nofun hnamed; exact .inr (.inr (.inr (.inr (.inl rfl))))
  | waitKey x =>
    obtain rfl := destination (by rintro (h | h) <;> cases h) hnamed
    exact .inr (.inr (.inr (.inr (.inr (.inl rfl)))))
  | loadRegs x =>
    obtain ⟨k, hk, heq⟩ | hpc := hnamed
    · obtain rfl := Part.reg.inj heq
      have hx : x = 15 := BitVec.le_antisymm (BitVec.le_def.mpr (Nat.le_of_lt_succ x.isLt)) hk
      exact .inr (.inr (.inr (.inr (.inr (.inr (congrArg Instr.loadRegs hx))))))
    · cases hpc
  | clearScreen | ret | call | jump | jumpOffset | skipEqImm | skipNeImm | skipEqReg | skipNeReg | skipKeyPressed
  | skipKeyNotPressed | loadIndex | addIndex | loadFont | fSetDelay | fSetSound | storeBCD | storeRegs =>
    simp [mayChange] at hnamed

/-- Settles O15: no shared operation looks at the input, and only Random's meaning does. -/
theorem onlyRandomReadsTheRndInput : Obligations.OnlyRandomReadsTheRndInput := by
  unfold Obligations.OnlyRandomReadsTheRndInput
  intro i s r hi
  exact exec_withRnd s r hi

end Sys2Proof
end

section
/-!
The proofs about the cycle (40_engine_cycle.md; 60_exceptions.md): what it answers and reports, what it leaves, and the
`cycle` command at the interface and in the queue.
-/

namespace Sys2Proof
namespace Machine

/-! ### The decoded instruction -/

theorem State.decoded_of_fetch {s : State} {w : Word} (h : s.fetch = some w) : s.decoded = some (decode w) := by
  rw [State.decoded, h, Option.map_some]

/-- An Unknown carries the opcode that was fetched. -/
theorem State.decoded_eq_unknown_iff {s : State} {w : Word} :
    s.decoded = some (.unknown w) ↔ s.fetch = some w ∧ decode w = .unknown w := by
  constructor
  · intro h
    obtain ⟨v, hfetch, hdecode⟩ := Option.map_eq_some_iff.mp h
    obtain rfl := decode_unknown hdecode
    exact ⟨hfetch, hdecode⟩
  · rintro ⟨hfetch, hdecode⟩
    rw [State.decoded_of_fetch hfetch, hdecode]

/-! ### What an instruction and a cycle answer -/

/-- Every instruction has a meaning: it answers a next state or a fault. -/
theorem exec_answers (i : Instr) (s : State) : (∃ t, exec i s = .next t) ∨ ∃ f, exec i s = .fault f := by
  have guarded (n : Nat) (t : State) :
      (∃ u, s.guardRange n (.next t) = .next u) ∨ ∃ f, s.guardRange n (.next t) = .fault f := by
    by_cases hover : 0 < n ∧ 0x1000 < s.index.toNat + n
    · exact .inr ⟨_, State.guardRange_overrun _ hover⟩
    · exact .inl ⟨t, State.guardRange_inRange _ (by omega)⟩
  cases i with
  | call nnn =>
    by_cases hsp : s.sp.val < 16
    · exact .inl ⟨_, exec_call_of_lt nnn hsp⟩
    · exact .inr ⟨_, exec_call_full nnn (by have := s.sp.isLt; omega)⟩
  | ret =>
    by_cases hsp : 0 < s.sp.val
    · exact .inl ⟨_, exec_ret_of_pos hsp⟩
    · exact .inr ⟨_, exec_ret_empty (by omega)⟩
  | draw | storeBCD | storeRegs | loadRegs => exact guarded _ _
  | skipKeyPressed x =>
    by_cases hkey : (s.reg x).toNat < 16
    · exact .inl ⟨_, exec_skipKeyPressed_of_lt hkey⟩
    · exact .inr ⟨_, exec_skipKeyPressed_of_gt (by omega)⟩
  | skipKeyNotPressed x =>
    by_cases hkey : (s.reg x).toNat < 16
    · exact .inl ⟨_, exec_skipKeyNotPressed_of_lt hkey⟩
    · exact .inr ⟨_, exec_skipKeyNotPressed_of_gt (by omega)⟩
  | waitKey x =>
    cases hkey : s.pendingKey with
    | none => exact .inl ⟨_, exec_waitKey_stalled x hkey⟩
    | some k => exact .inl ⟨_, exec_waitKey_latched x hkey⟩
  | clearScreen | jump | jumpOffset | skipEqImm | skipNeImm | skipEqReg | skipNeReg | loadImm | addImm | loadReg | orReg
  | andReg | xorReg | addReg | sub | shr | subN | shl | loadIndex | random | loadDelay | fSetDelay | fSetSound | addIndex
  | loadFont => exact .inl ⟨_, rfl⟩

theorem cycle_answers (s : State) : (∃ t, cycle s = .next t) ∨ ∃ f, cycle s = .fault f := by
  rcases cycle_cases s with ⟨i, -, -, heq⟩ | ⟨w, -, -, heq⟩ | ⟨-, -, heq⟩
  · exact heq ▸ exec_answers i s
  · exact .inl ⟨_, heq⟩
  · exact .inr ⟨_, heq⟩

/-- A cycle that faults has nothing to fetch, or faults in its instruction. -/
theorem cycle_fault {s : State} {f : Fault} (h : cycle s = .fault f) :
    (s.decoded = none ∧ 0xFFE < s.pc.toNat ∧ f = .fetchBounds s.pc) ∨
    ∃ i, s.decoded = some (.defined i) ∧ exec i s = .fault f := by
  rcases cycle_cases s with ⟨i, hdecoded, -, heq⟩ | ⟨w, -, -, heq⟩ | ⟨hdecoded, hpc, heq⟩
  · exact .inr ⟨i, hdecoded, heq ▸ h⟩
  · rw [heq] at h
    cases h
  · rw [heq] at h
    cases h
    exact .inl ⟨hdecoded, hpc, rfl⟩

/-- FetchBounds is the fetch's fault and no instruction's. -/
theorem exec_ne_fetchBounds (i : Instr) (s : State) (p : Word) : exec i s ≠ .fault (.fetchBounds p) := by
  intro h
  rcases eachInstructionHasItsOneFault i s _ h with ⟨-, -, hf⟩ | ⟨-, -, hf⟩ | ⟨-, hcode, -⟩ | ⟨x, -, -, hf⟩
  · cases hf
  · cases hf
  · cases hcode
  · cases hf

theorem cycle_eq_fetchBounds_iff {s : State} {p : Word} :
    cycle s = .fault (.fetchBounds p) ↔ 0xFFE < s.pc.toNat ∧ p = s.pc := by
  constructor
  · intro h
    rcases cycle_fault h with ⟨-, hpc, hp⟩ | ⟨i, -, hexec⟩
    · exact ⟨hpc, Fault.fetchBounds.inj hp⟩
    · exact absurd hexec (exec_ne_fetchBounds i s p)
  · rintro ⟨hpc, rfl⟩
    exact cycle_of_none (congrArg (Option.map decode) (State.fetch_outOfRange hpc))

/-- A cycle that faults does so whatever byte is driven: Random cannot fault. -/
theorem cycle_fault_withRnd {s : State} {f : Fault} (h : cycle s = .fault f) (r : Option Byte) :
    cycle (s.withRnd r) = .fault f := by
  rcases cycle_fault h with ⟨-, hpc, rfl⟩ | ⟨i, hdecoded, hexec⟩
  · exact cycle_eq_fetchBounds_iff.mpr ⟨hpc, rfl⟩
  · have not_random : ∀ x kk, i ≠ .random x kk := by
      rintro x kk rfl
      cases hexec
    rw [cycle_of_defined (s := s.withRnd r) hdecoded, exec_withRnd s r not_random, hexec]
    rfl

/-! ### What a cycle reports -/

theorem State.stalls_iff {s : State} :
    s.stalls = true ↔ s.pendingKey = none ∧ ∃ x, s.decoded = some (.defined (.waitKey x)) := by
  unfold State.stalls
  split
  · next x hdecoded => simp [hdecoded]
  · next hother =>
    constructor
    · nofun
    · rintro ⟨-, x, hdecoded⟩
      exact absurd hdecoded (hother x)

/-- A stalled cycle leaves the state. -/
theorem cycle_of_stalls {s : State} (h : s.stalls = true) : cycle s = .next s := by
  obtain ⟨hkey, x, hdecoded⟩ := State.stalls_iff.mp h
  exact (cycle_of_defined hdecoded).trans (exec_waitKey_stalled x hkey)

theorem cycleOutcome_of_fault {s : State} {f : Fault} (h : cycle s = .fault f) : cycleOutcome s = .fault f := by
  rw [cycleOutcome, h]

/-- The three outcomes of a cycle (R106). -/
theorem cycleOutcome_cases (s : State) :
    (s.stalls = true ∧ cycle s = .next s ∧ cycleOutcome s = .waitingForKey) ∨
    (s.stalls = false ∧ ∃ t, cycle s = .next t ∧ cycleOutcome s = .normal) ∨
    (s.stalls = false ∧ ∃ f, cycle s = .fault f ∧ cycleOutcome s = .fault f) := by
  cases hstalls : s.stalls with
  | true =>
    have hcycle := cycle_of_stalls hstalls
    exact .inl ⟨rfl, hcycle, by rw [cycleOutcome_of_next hcycle, if_pos hstalls]⟩
  | false =>
    have running : ¬ s.stalls = true := Bool.eq_false_iff.mp hstalls
    rcases cycle_answers s with ⟨t, hcycle⟩ | ⟨f, hcycle⟩
    · exact .inr (.inl ⟨rfl, t, hcycle, by rw [cycleOutcome_of_next hcycle, if_neg running]⟩)
    · exact .inr (.inr ⟨rfl, f, hcycle, cycleOutcome_of_fault hcycle⟩)

theorem cycleOutcome_eq_waitingForKey_iff {s : State} : cycleOutcome s = .waitingForKey ↔ s.stalls = true := by
  rcases cycleOutcome_cases s with ⟨hstalls, -, hout⟩ | ⟨hstalls, t, -, hout⟩ | ⟨hstalls, f, -, hout⟩
  · rw [hout, hstalls]; exact ⟨fun _ => rfl, fun _ => rfl⟩
  · rw [hout, hstalls]; exact ⟨nofun, nofun⟩
  · rw [hout, hstalls]; exact ⟨nofun, nofun⟩

theorem cycleOutcome_eq_normal {s t : State} (h : cycle s = .next t) (hstalls : s.stalls ≠ true) :
    cycleOutcome s = .normal := by
  rw [cycleOutcome_of_next h, if_neg hstalls]

theorem diagUnknown_of_unknown {s : State} {w : Word} (h : s.decoded = some (.unknown w)) : diagUnknown s = some w := by
  rw [diagUnknown, h]

theorem diagUnknown_eq_none {s : State} (h : ∀ w, s.decoded ≠ some (.unknown w)) : diagUnknown s = none := by
  unfold diagUnknown
  split
  · next w hdecoded => exact absurd hdecoded (h w)
  · rfl

/-- A faulting cycle has no diagnostic. -/
theorem diagUnknown_of_fault {s : State} {f : Fault} (h : cycle s = .fault f) : diagUnknown s = none := by
  refine diagUnknown_eq_none fun w hdecoded => ?_
  rw [cycle_of_unknown hdecoded] at h
  cases h

/-! ### What a cycle leaves -/

/-- A cycle changes `pc` and what its instruction may change. -/
theorem cycle_frame {s t : State} (h : cycle s = .next t) :
    OnlyChanges (fun p => (∃ i, s.decoded = some (.defined i) ∧ mayChange s i p) ∨ p = .pc) s t := by
  rcases cycle_cases s with ⟨i, hdecoded, -, heq⟩ | ⟨w, -, -, heq⟩ | ⟨-, -, heq⟩
  · exact (exec_frame (heq ▸ h)).mono fun _ hp => .inl ⟨i, hdecoded, hp⟩
  · rw [heq] at h
    cases h
    exact s.advance_frame.mono fun _ => .inr
  · rw [heq] at h
    cases h

theorem mayChange_delayTimer {s : State} {i : Instr} (h : mayChange s i .delayTimer) : ∃ x, i = .fSetDelay x := by
  cases i with
  | fSetDelay x => exact ⟨x, rfl⟩
  | _ => simp [mayChange] at h

theorem mayChange_soundTimer {s : State} {i : Instr} (h : mayChange s i .soundTimer) : ∃ x, i = .fSetSound x := by
  cases i with
  | fSetSound x => exact ⟨x, rfl⟩
  | _ => simp [mayChange] at h

theorem mayChange_latch {s : State} {i : Instr} (h : mayChange s i .latch) : ∃ x, i = .waitKey x := by
  cases i with
  | waitKey x => exact ⟨x, rfl⟩
  | _ => simp [mayChange] at h

/-- The parts that no instruction changes: the host's. -/
def Part.hostOnly : Part → Prop
  | .key _ | .audio | .commands | .rndIn => True
  | _ => False

theorem not_mayChange_hostOnly {s : State} {i : Instr} {p : Part} (hp : p.hostOnly) : ¬ mayChange s i p := by
  cases p with
  | key | audio | commands | rndIn => cases i <;> simp [mayChange]
  | _ => exact hp.elim

/-- A part other than `pc` that a cycle changes is one its instruction may change. -/
theorem cycle_names {s t : State} (h : cycle s = .next t) {p : Part} (hpc : p ≠ .pc)
    (hne : observe t p ≠ observe s p) : ∃ i, s.decoded = some (.defined i) ∧ mayChange s i p :=
  ((cycle_frame h).names hne).resolve_right hpc

/-- A cycle leaves the host's parts. -/
theorem cycle_hostOnly {s t : State} (h : cycle s = .next t) {p : Part} (hp : p.hostOnly) :
    observe t p = observe s p := by
  by_contra hne
  have hpc : p ≠ .pc := by rintro rfl; exact hp
  obtain ⟨i, -, hmay⟩ := cycle_names h hpc hne
  exact not_mayChange_hostOnly hp hmay

/-- Keypads that agree at every key are equal. -/
theorem keypad_ext {s t : State} (h : ∀ k, observe t (.key k) = observe s (.key k)) : t.keypad = s.keypad :=
  Vector.ext fun k hk => Seen.bit.inj (h ⟨k, hk⟩)

/-- The latch that a WaitKey changes is left empty. -/
theorem exec_waitKey_latch {x : Nibble} {s t : State} (h : exec (.waitKey x) s = .next t)
    (hne : t.pendingKey ≠ s.pendingKey) : t.pendingKey = none := by
  rcases exec_waitKey_next h with rfl | ⟨k, rfl⟩
  · exact absurd rfl hne
  · rfl

/-! ### The `cycle` command (R100) -/

theorem runCommand_cycle_next {s t : State} {r : Byte} (h : cycle (s.withRnd (some r)) = .next t) :
    runCommand (.cycle r) s = ({ t with rndIn := s.rndIn },
      .cycled (cycleOutcome (s.withRnd (some r))) (diagUnknown (s.withRnd (some r)))) := by
  have hdriven : cycle { s with rndIn := some r } = .next t := h
  simp only [runCommand, hdriven, restoreRnd]
  rfl

theorem runCommand_cycle_fault {s : State} {r : Byte} {f : Fault} (h : cycle (s.withRnd (some r)) = .fault f) :
    runCommand (.cycle r) s = (s, .cycled (.fault f) none) := by
  have hdriven : cycle { s with rndIn := some r } = .fault f := h
  simp only [runCommand, hdriven, restoreRnd]
  exact congrArg₂ (fun o d => (s, Response.cycled o d)) (cycleOutcome_of_fault h) (diagUnknown_of_fault h)

/-- A `cycle` command put in the queue is the next step. -/
theorem step_of_queued_cycle (s : State) (r : Byte) :
    step { s with commands := .cycle r :: s.commands } = restoreRnd s.rndIn (cycle (s.withRnd (some r))) :=
  step_of_cycle rfl

/-- A step that is a cycle, of an empty queue or of a queued command, faults with FetchBounds exactly above 0xFFE. -/
theorem step_eq_fetchBounds_iff {s : State} (hqueue : s.commands = [] ∨ ∃ r rest, s.commands = .cycle r :: rest)
    {p : Word} : step s = .fault (.fetchBounds p) ↔ 0xFFE < s.pc.toNat ∧ p = s.pc := by
  rcases hqueue with hempty | ⟨r, rest, hcycle⟩
  · rw [step_of_empty hempty, cycle_eq_fetchBounds_iff]
  · rw [step_of_cycle hcycle, restoreRnd_fault, cycle_eq_fetchBounds_iff]

/-! ### A cycle that meets an Unknown (R105) -/

theorem cycleOutcome_of_unknown {s : State} {w : Word} (h : s.decoded = some (.unknown w)) :
    cycleOutcome s = .normal := by
  refine cycleOutcome_eq_normal (cycle_of_unknown h) fun hstalls => ?_
  obtain ⟨-, x, hwait⟩ := State.stalls_iff.mp hstalls
  rw [h] at hwait
  cases hwait

theorem withCommands_frame (s : State) (c : List Command) : OnlyChanges (· = .commands) s { s with commands := c } := by
  intro p hp
  cases p with
  | commands => exact absurd rfl hp
  | _ => rfl

end Machine

open Machine

/-- Settles O6: the fetch succeeds, and fetch and decode do not look at the queue or the input. -/
theorem stepRunsTheDecodedInstruction : Obligations.StepRunsTheDecodedInstruction := by
  unfold Obligations.StepRunsTheDecodedInstruction
  intro s i hpc hdecode
  have hdecoded : s.decoded = some (.defined i) := by
    rw [State.decoded_of_fetch (State.fetch_inRange hpc), hdecode]
  refine ⟨fun hempty => ?empty, fun r rest hqueue => ?queued⟩
  case empty => rw [step_of_empty hempty, cycle_of_defined hdecoded]
  case queued =>
    have hdriven : State.decoded { s with commands := rest, rndIn := some r } = some (.defined i) := hdecoded
    rw [step_of_cycle hqueue, cycle_of_defined hdriven]

/-- Settles O8: each of the three cycles is the advance, and an Unknown does not stall. -/
theorem unknownOnlyAdvancesAndReports : Obligations.UnknownOnlyAdvancesAndReports := by
  unfold Obligations.UnknownOnlyAdvancesAndReports
  refine ⟨by decide, fun s w o hfetch hdecode => ?_⟩
  obtain rfl := decode_unknown hdecode
  have hdecoded : s.decoded = some (.unknown o) := State.decoded_eq_unknown_iff.mpr ⟨hfetch, hdecode⟩
  refine ⟨fun hempty => ?empty, fun r rest hqueue => ?queued, fun r => ?command, cycleOutcome_of_unknown hdecoded,
    diagUnknown_of_unknown hdecoded⟩
  case empty => exact ⟨s.advance, (step_of_empty hempty).trans (cycle_of_unknown hdecoded), rfl, s.advance_frame⟩
  case queued =>
    refine ⟨{ s.advance with commands := rest }, ?_, rfl, rfl, ?_⟩
    · have hdriven : State.decoded { s with commands := rest, rndIn := some r } = some (.unknown o) := hdecoded
      rw [step_of_cycle hqueue, cycle_of_unknown hdriven]
      rfl
    · exact (s.advance_frame.mono fun _ => .inl).trans ((withCommands_frame s.advance rest).mono fun _ => .inr)
  case command =>
    have hdriven : (s.withRnd (some r)).decoded = some (.unknown o) := hdecoded
    refine ⟨s.advance, ?_, rfl, s.advance_frame⟩
    rw [runCommand_cycle_next (cycle_of_unknown hdriven), cycleOutcome_of_unknown hdriven,
      diagUnknown_of_unknown hdriven]
    rfl

/-- Settles O9: the fetch raises FetchBounds exactly above 0xFFE, and no instruction raises it. -/
theorem fetchBoundsExactlyAboveFFE : Obligations.FetchBoundsExactlyAboveFFE := by
  unfold Obligations.FetchBoundsExactlyAboveFFE
  intro s hqueue
  refine ⟨fun hpc => (step_eq_fetchBounds_iff hqueue).mpr ⟨hpc, rfl⟩, fun p hstep => ?_⟩
  obtain ⟨hpc, rfl⟩ := (step_eq_fetchBounds_iff hqueue).mp hstep
  exact ⟨hpc, rfl, rfl, rfl⟩

/-- Settles O10: a faulting command leaves the state, and a fault does not depend on the byte driven. -/
theorem faultCommitsNothingAndRepeats : Obligations.FaultCommitsNothingAndRepeats := by
  unfold Obligations.FaultCommitsNothingAndRepeats
  intro s t r f d hrun
  rcases cycleOutcome_cases (s.withRnd (some r)) with ⟨-, hcycle, hout⟩ | ⟨-, u, hcycle, hout⟩ | ⟨-, g, hcycle, -⟩
  · rw [runCommand_cycle_next hcycle, hout] at hrun
    cases hrun
  · rw [runCommand_cycle_next hcycle, hout] at hrun
    cases hrun
  · rw [runCommand_cycle_fault hcycle] at hrun
    cases hrun
    exact ⟨rfl, fun r' => runCommand_cycle_fault (cycle_fault_withRnd hcycle (some r'))⟩

/-- Settles O12: the outcomes are the three of `cycleOutcome_cases`, and a stall is a WaitKey with no key latched. -/
theorem everyCycleHasOneOfThreeOutcomes : Obligations.EveryCycleHasOneOfThreeOutcomes := by
  unfold Obligations.EveryCycleHasOneOfThreeOutcomes
  intro s
  refine ⟨?answers, fun e => ?notRefused, ?waiting, fun hwaiting => ?stalled, fun t hnext hrunning => ?normal,
    fun w o hfetch hdecode => ?reported, fun hknown => ?silent⟩
  case answers => exact (cycle_answers s).imp_right fun ⟨f, hfault⟩ => ⟨f, hfault, cycleOutcome_of_fault hfault⟩
  case notRefused =>
    rcases cycleOutcome_cases s with ⟨-, -, hout⟩ | ⟨-, t, -, hout⟩ | ⟨-, f, -, hout⟩
    all_goals rw [hout]; nofun
  case waiting => exact cycleOutcome_eq_waitingForKey_iff.trans State.stalls_iff
  case stalled => exact cycle_of_stalls (cycleOutcome_eq_waitingForKey_iff.mp hwaiting)
  case normal => exact cycleOutcome_eq_normal hnext (mt State.stalls_iff.mp hrunning)
  case reported =>
    obtain rfl := decode_unknown hdecode
    exact diagUnknown_of_unknown (State.decoded_eq_unknown_iff.mpr ⟨hfetch, hdecode⟩)
  case silent =>
    refine diagUnknown_eq_none fun w hdecoded => ?_
    obtain ⟨hfetch, hdecode⟩ := State.decoded_eq_unknown_iff.mp hdecoded
    exact hknown w w hfetch hdecode

/-- Settles O13: a part that differs is one the instruction at `pc` may change; none may change the host's parts. -/
theorem cycleLeavesTimersKeypadAndAudio : Obligations.CycleLeavesTimersKeypadAndAudio := by
  unfold Obligations.CycleLeavesTimersKeypadAndAudio
  intro s t h
  refine ⟨fun hne => ?delay, fun hne => ?sound, Seen.bit.inj (cycle_hostOnly h (p := .audio) trivial),
    keypad_ext fun k => cycle_hostOnly h trivial, fun hne => ?latch,
    Seen.commands.inj (cycle_hostOnly h (p := .commands) trivial),
    Seen.input.inj (cycle_hostOnly h (p := .rndIn) trivial)⟩
  case delay =>
    obtain ⟨i, hdecoded, hmay⟩ := cycle_names h (p := .delayTimer) nofun (mt Seen.byte.inj hne)
    obtain ⟨x, rfl⟩ := mayChange_delayTimer hmay
    exact ⟨x, hdecoded⟩
  case sound =>
    obtain ⟨i, hdecoded, hmay⟩ := cycle_names h (p := .soundTimer) nofun (mt Seen.byte.inj hne)
    obtain ⟨x, rfl⟩ := mayChange_soundTimer hmay
    exact ⟨x, hdecoded⟩
  case latch =>
    obtain ⟨i, hdecoded, hmay⟩ := cycle_names h (p := .latch) nofun (mt Seen.key.inj hne)
    obtain ⟨x, rfl⟩ := mayChange_latch hmay
    rw [cycle_of_defined hdecoded] at h
    exact ⟨exec_waitKey_latch h hne, x, hdecoded⟩

/-- Settles O59: the command runs the cycle with its byte driven and restores the input. -/
theorem cycleCommandCommitsAndAnswers : Obligations.CycleCommandCommitsAndAnswers := by
  unfold Obligations.CycleCommandCommitsAndAnswers
  intro r s
  refine ⟨fun t hnext => ?commits, fun f hfault => ?faults⟩
  case commits =>
    have hrun := runCommand_cycle_next hnext
    have hdriven : cycle (s.withRnd (some r)) = .next t := hnext
    exact ⟨hrun, by rw [step_of_queued_cycle, hdriven, hrun]; rfl⟩
  case faults =>
    have hdriven : cycle (s.withRnd (some r)) = .fault f := hfault
    exact ⟨runCommand_cycle_fault hdriven, by rw [step_of_queued_cycle, hdriven]; rfl⟩

end Sys2Proof
end

section
/-!
The proofs about the host's operations (47_host_operations.md): reset, `load_program`, `set_key`, the timer writers and
reads, and what no command reaches; and the lag of the audio signal (60_exceptions.md, section 7).
-/

namespace Sys2Proof
namespace Machine

/-! ### The state after reset (R33, R56) -/

theorem runCommand_reset (s : State) : runCommand .reset s = (s.hostReset, .done) := rfl

/-- Memory lists nothing after reset, so every address reads as its reset contents. -/
theorem State.hostReset_byteAt (s : State) (a : Nat) : s.hostReset.byteAt a = resetByte a := rfl

theorem fontBytes_length : fontBytes.length = 80 := rfl

/-- Outside the font the reset contents are 0. -/
theorem resetByte_outside_font {a : Nat} (h : a < 0x050 ∨ 0x09F < a) : resetByte a = 0 := by
  rcases h with hbelow | habove
  · exact if_pos hbelow
  · have past : fontBytes.length ≤ a - fontBase := by rw [fontBytes_length, fontBase]; omega
    rw [resetByte, if_neg (by rw [fontBase]; omega), List.getD_eq_default _ _ past]

/-- The font stands at 0x050. -/
theorem resetByte_font : (List.range 80).map (fun k => resetByte (0x050 + k)) = fontBytes := by decide

theorem State.hostReset_reg (s : State) (x : Nibble) : s.hostReset.reg x = 0 := Vector.getElem_replicate x.isLt

/-! ### `load_program` (R201) -/

theorem writeImage_byteAt (s : State) {bytes : List Byte} (hlen : bytes.length ≤ 3584) {k : Nat}
    (hk : k < bytes.length) :
    State.byteAt { s with mem := writeBytes s.mem 0x200 bytes } (0x200 + k) = bytes[k] := by
  have inside : 0x200 + k < Config.memSize := by rw [Config.memSize]; omega
  rw [State.byteAt, readByte_writeBytes, if_pos ⟨by omega, by omega, inside⟩, Nat.add_sub_cancel_left,
    List.getD_eq_getElem _ _ hk]

theorem writeImage_frame (s : State) (bytes : List Byte) :
    OnlyChanges (fun p => ∃ k, k < bytes.length ∧ p = .byte (0x200 + k)) s
      { s with mem := writeBytes s.mem 0x200 bytes } := by
  intro p hp
  cases p with
  | byte a =>
    have elsewhere : ¬ (0x200 ≤ a ∧ a < 0x200 + bytes.length ∧ a < Config.memSize) := fun ⟨hlow, hhigh, _⟩ =>
      hp ⟨a - 0x200, by omega, congrArg Part.byte (by omega)⟩
    exact congrArg Seen.byte ((readByte_writeBytes _ _ _ _).trans (if_neg elsewhere))
  | _ => rfl

/-! ### `set_key` (R203) -/

theorem runCommand_setKey (s : State) (k : Nibble) (pressed : Bool) :
    runCommand (.setKey k pressed) s = (s.setKey k pressed, .done) := rfl

theorem State.setKey_keypad_self (s : State) (k : Nibble) (pressed : Bool) :
    (s.setKey k pressed).keypad[k.toNat]'(k.isLt) = pressed :=
  Vector.getElem_set_self k.isLt

/-- `set_key` changes the key and, on a press, the latch. -/
theorem State.setKey_frame (s : State) (k : Nibble) (pressed : Bool) :
    OnlyChanges (fun p => p = .key k ∨ (pressed = true ∧ p = .latch)) s (s.setKey k pressed) := by
  intro p hp
  cases p with
  | key j =>
    have other : k.toNat ≠ j.toNat := fun h => hp (.inl (congrArg Part.key (BitVec.eq_of_toNat_eq h.symm)))
    exact congrArg Seen.bit (Vector.getElem_set_ne k.isLt j.isLt other)
  | latch =>
    have released : ¬ pressed = true := fun h => hp (.inr ⟨h, rfl⟩)
    exact congrArg Seen.key (if_neg released)
  | _ => rfl

/-! ### The timer writers (R206) -/

theorem runCommand_setDelayTimer (s : State) (b : Byte) :
    runCommand (.setDelayTimer b) s = ({ s with dt := b }, .done) := rfl

theorem runCommand_setSoundTimer (s : State) (b : Byte) :
    runCommand (.setSoundTimer b) s = ({ s with st := b }, .done) := rfl

/-! ### The lag of the audio signal -/

theorem iterate_stepTimers_dt (s : State) (n : Nat) : (State.stepTimers^[n] s).dt.toNat = s.dt.toNat - n := by
  induction n with
  | zero => rfl
  | succ n ih => rw [Function.iterate_succ_apply', State.stepTimers_dt_toNat, ih, Nat.sub_sub]

theorem iterate_stepTimers_st (s : State) (n : Nat) : (State.stepTimers^[n] s).st.toNat = s.st.toNat - n := by
  induction n with
  | zero => rfl
  | succ n ih => rw [Function.iterate_succ_apply', State.stepTimers_st_toNat, ih, Nat.sub_sub]

/-- The signal after a step is on iff the step found `ST` above 0. -/
theorem iterate_stepTimers_audioActive (s : State) (n : Nat) :
    (State.stepTimers^[n + 1] s).audioActive = true ↔ n + 1 ≤ s.st.toNat := by
  rw [Function.iterate_succ_apply', State.stepTimers_audioActive_eq_decide_pos, iterate_stepTimers_st,
    decide_eq_true_iff]
  omega

/-! ### What no command but `reset` and `cycle` reaches -/

/-- The parts of the state that are the host's to write. -/
def Part.hostWritable (p : Part) : Prop :=
  (∃ a, 0x200 ≤ a ∧ p = .byte a) ∨ p = .delayTimer ∨ p = .soundTimer ∨ (∃ k, p = .key k) ∨ p = .latch ∨ p = .audio

theorem runCommand_frame {c : Command} (s : State) (hreset : c ≠ .reset) (hcycle : ∀ r, c ≠ .cycle r) :
    OnlyChanges Part.hostWritable s (runCommand c s).1 := by
  cases c with
  | reset => exact absurd rfl hreset
  | cycle r => exact absurd rfl (hcycle r)
  | loadProgram bytes =>
    by_cases hlen : bytes.length ≤ 3584
    · rw [runCommand_loadProgram_ok s hlen]
      exact (writeImage_frame s bytes).mono fun _ ⟨k, _, hp⟩ => .inl ⟨_, Nat.le_add_right _ k, hp⟩
    · rw [runCommand_loadProgram_error s (by omega)]
      exact .refl _ s
  | stepTimers =>
    refine s.stepTimers_frame.mono ?_
    rintro p (hdelay | hsound | haudio)
    · exact .inr (.inl hdelay)
    · exact .inr (.inr (.inl hsound))
    · exact .inr (.inr (.inr (.inr (.inr haudio))))
  | setKey k pressed =>
    refine (s.setKey_frame k pressed).mono ?_
    rintro p (hkey | ⟨-, hlatch⟩)
    · exact .inr (.inr (.inr (.inl ⟨k, hkey⟩)))
    · exact .inr (.inr (.inr (.inr (.inl hlatch))))
  | setDelayTimer b => exact (withDt_frame s b).mono fun _ hp => .inr (.inl hp)
  | setSoundTimer b => exact (withSt_frame s b).mono fun _ hp => .inr (.inr (.inl hp))
  | framebuffer | delayTimer | soundTimer | audioActive => exact .refl _ s

/-- Of the commands other than `reset` and `cycle`, a press alone writes the latch, and `step_timers` alone the signal. -/
theorem runCommand_latch_audio {c : Command} (s : State) (hreset : c ≠ .reset) (hcycle : ∀ r, c ≠ .cycle r) :
    ((runCommand c s).1.pendingKey = s.pendingKey ∨ ∃ k, (runCommand c s).1.pendingKey = some k) ∧
    ((runCommand c s).1.audioActive = s.audioActive ∨ c = .stepTimers) := by
  cases c with
  | reset => exact absurd rfl hreset
  | cycle r => exact absurd rfl (hcycle r)
  | loadProgram bytes =>
    by_cases hlen : bytes.length ≤ 3584
    · rw [runCommand_loadProgram_ok s hlen]
      exact ⟨.inl rfl, .inl rfl⟩
    · rw [runCommand_loadProgram_error s (by omega)]
      exact ⟨.inl rfl, .inl rfl⟩
  | stepTimers => exact ⟨.inl rfl, .inr rfl⟩
  | setKey k pressed =>
    cases pressed with
    | true => exact ⟨.inr ⟨k, rfl⟩, .inl rfl⟩
    | false => exact ⟨.inl rfl, .inl rfl⟩
  | setDelayTimer | setSoundTimer | framebuffer | delayTimer | soundTimer | audioActive => exact ⟨.inl rfl, .inl rfl⟩

end Machine

open Machine

/-- Settles O18: every field is the reset state's, memory reads as its reset contents, and the inputs are kept. -/
theorem resetCommandLeavesTheTable : Obligations.ResetCommandLeavesTheTable := by
  unfold Obligations.ResetCommandLeavesTheTable
  intro s
  refine ⟨s.hostReset, runCommand_reset s, rfl, rfl, rfl, rfl, rfl, rfl, rfl, s.hostReset_reg, ?stack, ?keypad, ?cells,
    ?zeros, resetByte_font, rfl, rfl, rfl⟩
  case stack => exact fun k => Vector.getElem_replicate k.isLt
  case keypad => exact fun k => Vector.getElem_replicate k.isLt
  case cells => exact cellOf_cleared
  case zeros => exact fun a ha => (s.hostReset_byteAt a).trans (resetByte_outside_font ha)

/-- Settles O53: by induction on the number of steps for the counters; the signal is what the last step found. -/
theorem audioIsOnForExactlySTSteps : Obligations.AudioIsOnForExactlySTSteps := by
  unfold Obligations.AudioIsOnForExactlySTSteps
  intro s n
  refine ⟨iterate_stepTimers_dt s n, iterate_stepTimers_st s n, fun hpos => ?_⟩
  obtain ⟨m, rfl⟩ := Nat.exists_eq_succ_of_ne_zero hpos.ne'
  exact iterate_stepTimers_audioActive s m

/-- Settles O54: the key follows the event, and only a press writes the latch. -/
theorem setKeyLatchesEveryPress : Obligations.SetKeyLatchesEveryPress := by
  unfold Obligations.SetKeyLatchesEveryPress
  intro k s
  refine ⟨⟨_, runCommand_setKey s k true, s.setKey_keypad_self k true, rfl, ?press⟩,
    ⟨_, runCommand_setKey s k false, s.setKey_keypad_self k false, ?release⟩⟩
  case press => exact (s.setKey_frame k true).mono fun _ => Or.imp_right And.right
  case release => exact (s.setKey_frame k false).mono fun _ hp => hp.resolve_right fun ⟨hpressed, _⟩ => nomatch hpressed

/-- Settles O55: an image that fits is written byte by byte. -/
theorem loadProgramWritesTheImageOnly : Obligations.LoadProgramWritesTheImageOnly := by
  unfold Obligations.LoadProgramWritesTheImageOnly
  intro bytes s
  refine ⟨fun hfits => ?fits, runCommand_loadProgram_error s⟩
  case fits =>
    exact ⟨_, runCommand_loadProgram_ok s hfits, fun k hk => writeImage_byteAt s hfits hk, writeImage_frame s bytes⟩

/-- Settles O56: a timer writer is one write of its timer, as is the instruction that writes it. -/
theorem timerWritersWriteOneTimer : Obligations.TimerWritersWriteOneTimer := by
  unfold Obligations.TimerWritersWriteOneTimer
  intro b s
  refine ⟨⟨_, runCommand_setDelayTimer s b, withDt_frame s b, rfl, rfl⟩,
    ⟨_, runCommand_setSoundTimer s b, withSt_frame s b, rfl, rfl⟩,
    fun x hx => ⟨fun t hnext => ?delay, fun t hnext => ?sound⟩⟩
  case delay =>
    rw [exec_fSetDelay] at hnext
    cases hnext
    exact hx
  case sound =>
    rw [exec_fSetSound] at hnext
    cases hnext
    exact hx

/-- Settles O58: the frame of the host's commands, and the two parts it names that few of them write. -/
theorem hostCannotReachTheProgramsState : Obligations.HostCannotReachTheProgramsState := by
  unfold Obligations.HostCannotReachTheProgramsState
  intro c s hreset hcycle
  obtain ⟨hlatch, haudio⟩ := runCommand_latch_audio s hreset hcycle
  refine ⟨runCommand_frame s hreset hcycle, fun hnone => ?latch, haudio.resolve_left⟩
  case latch =>
    rcases hlatch with hsame | ⟨k, hpress⟩
    · exact hsame ▸ hnone
    · rw [hpress] at hnone
      cases hnone

end Sys2Proof
end
